-- ==== Sys2Proof/Word.lean ====
section
/-!
DEFINITION. The words of the block: bytes, u16, u32 (R9) and byte strings (R10). Every operation on them
stands in Machine/Bytes.lean.
-/

namespace Sys2Proof

/-- A byte, an 8-bit unsigned value; bit 0 is the least significant (R9). -/
abbrev Byte := BitVec 8

/-- A 16-bit unsigned integer (R9). -/
abbrev U16 := BitVec 16

/-- A 32-bit unsigned integer (R9). -/
abbrev U32 := BitVec 32

/-- A byte string; index 0 is the first byte on the wire (R10). -/
abbrev Bytes := List Byte

end Sys2Proof
end

