-- ==== Sys2Proof/Config.lean ====
section
/-!
DEFINITION. What is fixed for one block: the sizes of R6, the values derived from them in R7, and the
parameters of R8.
-/

namespace Sys2Proof

/-- FRAME_LEN: bytes in one packet frame (R6). -/
@[simp] abbrev Config.frameLen : Nat := 256

/-- PAYLOAD_LEN: payload bytes in one frame (R6). -/
@[simp] abbrev Config.payloadLen : Nat := 251

/-- CRC_SPAN: frame bytes the frame CRC covers (R6). -/
@[simp] abbrev Config.crcSpan : Nat := 252

/-- CRC_LEN: bytes of a serialised CRC-32 (R6). -/
@[simp] abbrev Config.crcLen : Nat := 4

/-- PIECE_LEN: most piece bytes the segmenter puts in one chunk (R6). -/
@[simp] abbrev Config.pieceLen : Nat := 240

/-- CHUNK_HDR_LEN: bytes of chunk header (R6). -/
@[simp] abbrev Config.chunkHdrLen : Nat := 7

/-- MAX_PIECE_FIELD: the largest chunk-length that fits in one payload (R7). -/
@[simp] abbrev Config.maxPieceField : Nat := 244

/-- MAX_PIECES: the largest total-chunk-count a u16 holds (R7). -/
@[simp] abbrev Config.maxPieces : Nat := 65535

/-- MAX_SEG_INPUT: the largest buffer the segmenter accepts (R7). -/
@[simp] abbrev Config.maxSegInput : Nat := 15728396

/-- The type of parameter CRC32_FN (R8, I2). The shared operations take it as an argument; the meanings
apply them to `Machine.crc32`, the function R121 decides. -/
abbrev Config.CrcFn := Bytes → U32

/-- REASM_CAP (R8, D14: OPEN): how many bytes the accumulation buffer of the block at reset holds. It has no
body, so nothing can be proved of its value (log 3). -/
opaque Config.reasmCap : Nat

end Sys2Proof
end

