-- ==== Sys2Proof/Machine/Bytes.lean ====
section
/-!
DEFINITION. The byte-string and field primitives of R9 to R11, on unbounded naturals as R15 says.
-/

namespace Sys2Proof.Machine

/-- `v[hi:lo]`: bits hi down to lo of an integer (R9). -/
def bits (v hi lo : Nat) : Nat := v / 2 ^ lo % 2 ^ (hi + 1 - lo)

/-- The byte of a byte string at an index. Every rule checks lengths first (R10); the 0 past the end is
never read by a rule (log 11). -/
def byteAt (b : Bytes) (i : Nat) : Byte := b.getD i 0

/-- `B[a:+n]`: the n bytes of B from index a (R10). -/
def slice (b : Bytes) (a n : Nat) : Bytes := (b.drop a).take n

/-- `zeros(n)`: n bytes of 0x00 (R10). -/
def zeros (n : Nat) : Bytes := List.replicate n 0

/-- `le16(B, i)`: the u16 at offset i, least significant byte first (R11). -/
def le16 (b : Bytes) (i : Nat) : Nat :=
  (byteAt b i).toNat + 256 * (byteAt b (i + 1)).toNat

/-- `le32(B, i)`: the u32 at offset i, least significant byte first (R11). -/
def le32 (b : Bytes) (i : Nat) : Nat :=
  (byteAt b i).toNat + 2 ^ 8 * (byteAt b (i + 1)).toNat
    + 2 ^ 16 * (byteAt b (i + 2)).toNat + 2 ^ 24 * (byteAt b (i + 3)).toNat

/-- `put16(v)`: two bytes, least significant first (R11). -/
def put16 (v : Nat) : Bytes :=
  [BitVec.ofNat 8 (bits v 7 0), BitVec.ofNat 8 (bits v 15 8)]

/-- `put32(v)`: four bytes, least significant first (R11). -/
def put32 (v : Nat) : Bytes :=
  [BitVec.ofNat 8 (bits v 7 0), BitVec.ofNat 8 (bits v 15 8),
   BitVec.ofNat 8 (bits v 23 16), BitVec.ofNat 8 (bits v 31 24)]

/-- `ceil(a / b)` for b > 0 (R15). -/
def ceilDiv (a b : Nat) : Nat := (a + b - 1) / b

/-- The n lowest bytes of an integer, least significant first: how a word of any width lies on the wire
(R11, R63). -/
def leBytes : Nat → Nat → Bytes
  | 0, _ => []
  | n + 1, v => BitVec.ofNat 8 (v % 256) :: leBytes n (v / 256)

end Sys2Proof.Machine
end

