-- ==== Sys2Proof/Syntax.lean ====
section
/-!
DEFINITION. The six operations of spec/opcode_table.json (R96), each with what its request carries: the
argument byte where the operation has one, and the operand X (R94).
-/

namespace Sys2Proof

/-- One operation the host can request (R96). -/
inductive Instr where
  /-- CRC32, op 0x01: the CRC-32 of the operand (R126). -/
  | crc32 (x : Bytes)
  /-- PKT_ENCODE, op 0x02: build a frame from a command id and a payload (R142). -/
  | pktEncode (cmd : Byte) (x : Bytes)
  /-- PKT_DECODE, op 0x03: check a frame and return its command id and payload (R147). -/
  | pktDecode (x : Bytes)
  /-- CHUNK_ENCODE, op 0x04: split a buffer into chunk payloads (R171). -/
  | chunkEncode (sub : Byte) (x : Bytes)
  /-- CHUNK_FEED, op 0x05: give one chunk payload to the reassembler (R185). -/
  | chunkFeed (x : Bytes)
  /-- REASM_CLEAR, op 0x06: discard any accumulation (R200). It takes no operand; a request that carries one
  is answered ERR_LENGTH, so the operand is kept. -/
  | reasmClear (x : Bytes)
  deriving DecidableEq, Repr

/-- The operand byte string X of a request (R94). -/
def Instr.operand : Instr → Bytes
  | .crc32 x => x
  | .pktEncode _ x => x
  | .pktDecode x => x
  | .chunkEncode _ x => x
  | .chunkFeed x => x
  | .reasmClear x => x

end Sys2Proof
end

