-- ==== Sys2Proof/WellFormed.lean ====
section
/-!
DEFINITION. Which operations a request can carry: the operand length L is a u32 (R94, R96). The argument
byte and the op code need no check, since the syntax holds no reserved value of them.
-/

namespace Sys2Proof

/-- The operand length fits the u32 field L (R94). -/
abbrev Instr.WellFormed (i : Instr) : Prop := i.operand.length < 4294967296

end Sys2Proof
end

