-- ==== Sys2Proof/Decode.lean ====
section
/-!
DEFINITION. From the bytes of a serialised request to an operation or a named refusal (R94, R97, R98), and
back (R94, R96).
-/

namespace Sys2Proof

open Machine (bits le32 put32 leBytes)

/-- Why bytes are no operation of the block. -/
inductive DecodeError where
  /-- Fewer bytes than the request word and the operand length take: no request at all (R94). -/
  | short
  /-- The operand is not L bytes long: no request at all (R94). -/
  | lengthMismatch
  /-- The rsvd field Q[31:16] is not 0: answered ERR_BADOP (R97). -/
  | reservedBits
  /-- Op 0x00 or 0x07 to 0xFF: answered ERR_BADOP (R97, R98). -/
  | reservedOp
  /-- A non-zero argument byte on an operation that has none: answered ERR_BADOP (R97, R98). -/
  | reservedArg
  deriving DecidableEq, Repr

/-- The op field Q[7:0] of a request word (R94). -/
def opField (q : Nat) : Nat := bits q 7 0

/-- The argument byte Q[15:8] of a request word (R94). -/
def argField (q : Nat) : Nat := bits q 15 8

/-- The reserved field Q[31:16] of a request word (R94). -/
def rsvdField (q : Nat) : Nat := bits q 31 16

/-- An operation that has no argument byte: refused unless arg8 is 0 (third check of R97). -/
def needsZeroArg (q : Nat) (i : Instr) : Except DecodeError Instr :=
  if argField q ≠ 0 then .error .reservedArg else .ok i

/-- Request decode: the checks of R97 in its order, then the operation of R96. -/
def decodeWord (q : Nat) (x : Bytes) : Except DecodeError Instr :=
  if rsvdField q ≠ 0 then .error .reservedBits
  else if opField q = 0x01 then needsZeroArg q (.crc32 x)
  else if opField q = 0x02 then .ok (.pktEncode (BitVec.ofNat 8 (argField q)) x)
  else if opField q = 0x03 then needsZeroArg q (.pktDecode x)
  else if opField q = 0x04 then .ok (.chunkEncode (BitVec.ofNat 8 (argField q)) x)
  else if opField q = 0x05 then needsZeroArg q (.chunkFeed x)
  else if opField q = 0x06 then needsZeroArg q (.reasmClear x)
  else .error .reservedOp

/-- Decode a serialised request `put32(Q) ++ put32(L) ++ X`, where X has L bytes (R94). -/
def decode (bs : Bytes) : Except DecodeError Instr :=
  if bs.length < 8 then .error .short
  else if (bs.drop 8).length ≠ le32 bs 4 then .error .lengthMismatch
  else decodeWord (le32 bs 0) (bs.drop 8)

/-- The op code of an operation (R96). -/
def Instr.op : Instr → Nat
  | .crc32 _ => 0x01
  | .pktEncode _ _ => 0x02
  | .pktDecode _ => 0x03
  | .chunkEncode _ _ => 0x04
  | .chunkFeed _ => 0x05
  | .reasmClear _ => 0x06

/-- The argument byte of an operation: command id, sub-command, or 0 (R94). -/
def Instr.arg8 : Instr → Byte
  | .pktEncode cmd _ => cmd
  | .chunkEncode sub _ => sub
  | .crc32 _ => 0
  | .pktDecode _ => 0
  | .chunkFeed _ => 0
  | .reasmClear _ => 0

/-- The request word Q of an operation: op in bits 7:0, arg8 in bits 15:8, rsvd 0 (R94). -/
def requestWord (i : Instr) : Nat := i.op + 2 ^ 8 * i.arg8.toNat

/-- The serialised request `put32(Q) ++ put32(L) ++ X` (R94), for a well-formed operation: the check R15 has before a
put32 is `Instr.WellFormed`. An ill-formed one has no serialisation, and what this gives for it is no request
(log 15). -/
def encode (i : Instr) : Bytes :=
  put32 (requestWord i) ++ put32 i.operand.length ++ i.operand

/-- The bytes of a request whose first `nbits` bits are `w` and whose remaining bits, up to the operand
length field, are 0. -/
def tableBytes (nbits w : Nat) : Bytes :=
  leBytes (max 8 ((nbits + 7) / 8)) (w % 2 ^ nbits)

/-- The operation the decoder reads from a table word, with operand length 0 and no operand. -/
def decodeTableWord (nbits w : Nat) : Option Instr := (decode (tableBytes nbits w)).toOption

end Sys2Proof
end

