-- ==== Sys2Proof/Machine/State.lean ====
section
/-!
DEFINITION. The state of the block (R30, R32), the response it gives (R99), and what the host and the
platform do to it (R94, R261, R270), all as plain data; the machine right after reset (R41, R260).
-/

namespace Sys2Proof.Machine

/-- `s.phase` (R32). -/
inductive Phase where
  /-- IDLE: no accumulation in progress; the next piece starts a fresh one. -/
  | idle
  /-- ACCUM: one or more pieces of a transfer have been taken and the transfer is not complete. -/
  | accum
  deriving DecidableEq, Repr

/-- The reassembler, the block's only architectural state (R30, R32); there is exactly one (R34). -/
structure Reassembler where
  /-- Whether an accumulation is in progress. -/
  phase : Phase
  /-- The expected piece count, from the first piece observed. -/
  expected : U16
  /-- The number of pieces taken since the accumulation started. -/
  received : U16
  /-- The pieces' bytes, appended in arrival order. -/
  acc : Bytes
  deriving DecidableEq, Repr

/-- The outcome of an operation (R100). -/
inductive Status where
  /-- The operation completed; for CHUNK_FEED, the transfer is complete and intact. -/
  | ok
  /-- CHUNK_FEED took the piece and the transfer is not complete; not an error (R227). -/
  | incomplete
  /-- An operand length is outside the operation's range (R222). -/
  | errLength
  /-- A CRC check failed (R223). -/
  | errIntegrity
  /-- A chunk payload's header is inconsistent (R224). -/
  | errMalformed
  /-- The accumulation buffer would pass REASM_CAP (R225). -/
  | errOverflow
  /-- The request word is reserved or illegal (R226). -/
  | errBadop
  deriving DecidableEq, Repr

/-- The response to one request (R99). -/
structure Response where
  /-- The status of the operation. -/
  status : Status
  /-- `arg_out`: the command id of a successful PKT_DECODE, 0 otherwise. -/
  argOut : Byte
  /-- The output byte strings; none on any status but OK. -/
  outs : List Bytes
  deriving DecidableEq, Repr

/-- What the host or the platform does next to the block. -/
inductive HostEvent where
  /-- The host, holding the response to its previous request, issues these serialised bytes (R94, R270). -/
  | request (bytes : Bytes)
  /-- The platform asserts reset between two operations (R261). -/
  | reset
  /-- The platform asserts reset while this request is in progress (R261, I7). -/
  | resetDuring (bytes : Bytes)
  /-- The host issues a second request before the response to the first (R270). -/
  | overlap (first second : Bytes)
  deriving DecidableEq, Repr

/-- The machine: the block's reassembler, its buffer capacity, and the host at its port. -/
structure State where
  /-- The reassembler (R32). -/
  reasm : Reassembler
  /-- REASM_CAP, the capacity of `reasm.acc` in bytes (R8, D14): fixed for one block, so no step writes it
  (log 3). -/
  cap : Nat
  /-- What the host and the platform do from here on, next first: input, not state of the block (R31, log 1). -/
  script : List HostEvent
  /-- The responses given so far, oldest first: the observation of a run (R282). The block keeps none of them
  and never reads them (R31, R38, log 2). A platform reset leaves them as they are (log 16). -/
  responses : List Response
  deriving DecidableEq, Repr

/-- Why the machine stops where the spec describes no machine. No instruction raises a fault: an error of an
operation is a status in its response (R235). -/
inductive Fault where
  /-- Raised by the fetch, when the bytes at the port are not `put32(Q) ++ put32(L) ++ X` with L bytes in X, so
  that no request was issued at all (R94, log 6). Safe: the spec gives such bytes no effect. -/
  | notARequest
  deriving DecidableEq, Repr

/-- What the model refuses to give a meaning. -/
inductive Refusal where
  /-- An instruction of the table that has no meaning yet. Safe. Raised only by an arm of exec; no arm does. -/
  | notModelled (mnemonic : String)
  /-- Raised by the fetch, when the host has two requests outstanding: the spec says that a model refuses such
  a run (R270, D19, I6). Safe as to what it proves of the block; a run that overlaps requests is a blind spot
  (log 4). -/
  | overlappingRequests
  deriving DecidableEq, Repr

/-- The reassembler at reset: IDLE, 0, 0, empty (R41). -/
def Reassembler.fresh : Reassembler :=
  { phase := .idle, expected := 0, received := 0, acc := [] }

/-- The machine right after power-on: the reassembler at the values of R41, the capacity the open parameter,
no request issued and no response given. -/
def State.reset : State :=
  { reasm := .fresh, cap := Config.reasmCap, script := [], responses := [] }

end Sys2Proof.Machine
end

