-- ==== Sys2Proof/Machine/Flags.lean ====
section
/-!
DEFINITION. The status of a response. The block keeps no condition codes and no sticky flags (R38): each
response carries its own status, numbered here as R100 numbers it.
-/

namespace Sys2Proof.Machine

/-- The status byte (R100). -/
def Status.code : Status → Byte
  | .ok => 0x00
  | .incomplete => 0x01
  | .errLength => 0x02
  | .errIntegrity => 0x03
  | .errMalformed => 0x04
  | .errOverflow => 0x05
  | .errBadop => 0x06

/-- The status a byte stands for; 0x07 to 0xFF are never returned (R100). -/
def Status.ofCode? (b : Byte) : Option Status :=
  if b = 0x00 then some .ok
  else if b = 0x01 then some .incomplete
  else if b = 0x02 then some .errLength
  else if b = 0x03 then some .errIntegrity
  else if b = 0x04 then some .errMalformed
  else if b = 0x05 then some .errOverflow
  else if b = 0x06 then some .errBadop
  else none

/-- Whether a status reports an error: neither OK nor INCOMPLETE (R227). -/
def Status.isError : Status → Bool
  | .ok => false
  | .incomplete => false
  | .errLength => true
  | .errIntegrity => true
  | .errMalformed => true
  | .errOverflow => true
  | .errBadop => true

end Sys2Proof.Machine
end

