-- ==== Sys2Proof/Machine/Ops.lean ====
section
/-!
DEFINITION. The shared operations: giving a response (R13, R99), raising an error (R13, R235), the
accumulation buffer (R61), returning the reassembler to IDLE (R185), reset (R260), and fetching the host's
next request (R70, R97, R270).
-/

namespace Sys2Proof.Machine

/-- `respond(status, outs)` with arg_out = 0 (R13, R99). -/
def Response.respond (st : Status) (outs : List Bytes) : Response :=
  { status := st, argOut := 0, outs := outs }

/-- `raise E()`: the response of an error, with no output and nothing recorded of its cause (R13, R221). There
is no trap and no handler, so this is all that taking an exception does beside the state effect of its rule,
and there is nothing to return from (R235, R236). -/
def Response.raise (e : Status) : Response := Response.respond e []

/-- One output byte string as the response carries it: its length, then its bytes (R99). -/
def outBytes (o : Bytes) : Bytes := put32 o.length ++ o

/-- The serialised response (R99). -/
def Response.toBytes (r : Response) : Bytes :=
  [r.status.code, r.argOut] ++ put16 r.outs.length ++ (r.outs.map outBytes).flatten

/-- The host gets a response (R13, R99). The block keeps nothing of it (R38, R62). -/
def State.respond (s : State) (r : Response) : State :=
  { s with responses := s.responses ++ [r] }

/-- The host gets the response of an error (R13). -/
def State.raise (s : State) (e : Status) : State := s.respond (.raise e)

/-- The state with another reassembler: all writes of one operation together (R12). -/
def State.setReasm (s : State) (m : Reassembler) : State := { s with reasm := m }

/-- The state with another script: the host's next event has been taken. -/
def State.setScript (s : State) (l : List HostEvent) : State := { s with script := l }

/-- AccAppend(P) (R61). -/
def Reassembler.accAppend (m : Reassembler) (p : Bytes) : Reassembler := { m with acc := m.acc ++ p }

/-- AccClear() (R61). -/
def Reassembler.accClear (m : Reassembler) : Reassembler := { m with acc := [] }

/-- AccTake(): the whole buffer, and the reassembler with the buffer emptied (R61). -/
def Reassembler.accTake (m : Reassembler) : Bytes × Reassembler := (m.acc, m.accClear)

/-- goIdle() of R185: every element at its reset value. -/
def Reassembler.goIdle (m : Reassembler) : Reassembler :=
  { m.accClear with phase := .idle, expected := 0, received := 0 }

/-- Reset between two operations: the reassembler at its reset values, nothing else of the block to reset
(R260, R261). DESIGN CHOICE: the run goes on, with the host's earlier responses still in its observation; R282 speaks
only of a run from the reset state and does not say whether a reset inside one begins another (log 16). -/
def State.platformReset (s : State) : State := s.setReasm s.reasm.goIdle

/-- What the block finds at its port. -/
inductive Fetched where
  /-- Nothing: no request has been issued. -/
  | idle
  /-- A request that decodes to this operation, and the state with the request taken. -/
  | run (i : Instr) (s : State)
  /-- An event that is over with no operation run: a refused request word or a reset. -/
  | done (s : State)
  /-- Bytes that are no request. -/
  | fault (f : Fault)
  /-- An event the model gives no meaning. -/
  | refused (r : Refusal)
  deriving DecidableEq, Repr

/-- Request decode at the port (R97): an operation to run; ERR_BADOP, which changes no state (R226); or no
request at all (R94). -/
def fetchRequest (bs : Bytes) (s : State) : Fetched :=
  match decode bs with
  | .ok i => .run i s
  | .error .short => .fault .notARequest
  | .error .lengthMismatch => .fault .notARequest
  | .error .reservedBits => .done (s.raise .errBadop)
  | .error .reservedOp => .done (s.raise .errBadop)
  | .error .reservedArg => .done (s.raise .errBadop)

/-- Take the next event at the port (R70): requests in the order the host issues them, reset between two
operations (R261), a request in progress at reset unanswered (R261, I7), overlapping requests refused (R270). -/
def fetch (s : State) : Fetched :=
  match s.script with
  | [] => .idle
  | .request bs :: rest => fetchRequest bs (s.setScript rest)
  | .reset :: rest => .done (s.setScript rest).platformReset
  | .resetDuring _ :: rest => .done (s.setScript rest).platformReset
  | .overlap _ _ :: _ => .refused .overlappingRequests

end Sys2Proof.Machine
end

