-- ==== Sys2Proof/Machine/Crc.lean ====
section
/-!
DEFINITION. The CRC-32 function (R120 to R124) and the CRC32 operation (R126).
-/

namespace Sys2Proof.Machine

/-- The reflected generator polynomial (R121, R122). -/
def crcPoly : U32 := 0xEDB88320#32

/-- One turn of the inner loop of R121: a logical right shift, with the polynomial where a 1 falls out. -/
def crcBit (c : U32) : U32 :=
  if c.getLsbD 0 = true then (c >>> 1) ^^^ crcPoly else c >>> 1

/-- One byte of the outer loop of R121. -/
def crcByte (c : U32) (b : Byte) : U32 := Nat.iterate crcBit 8 (c ^^^ b.setWidth 32)

/-- The register of R121 after the bytes of a string, from any register value. -/
def crcRun (c : U32) (b : Bytes) : U32 := b.foldl crcByte c

/-- `crc32(B)` (R121): the parameter CRC32_FN as the spec decides it (D1, log 8). -/
def crc32 (b : Bytes) : U32 := crcRun 0xFFFFFFFF#32 b ^^^ 0xFFFFFFFF#32

/-- One byte of a CRC in the catalogue's form (R122): the byte, reflected if the parameter says so, enters at
the top of the register, which shifts left by the polynomial in normal form. -/
def catalogueByte (poly : U32) (refIn : Bool) (c : U32) (b : Byte) : U32 :=
  Nat.iterate (fun c => if c.msb = true then (c <<< 1) ^^^ poly else c <<< 1) 8
    (c ^^^ ((if refIn = true then b.reverse else b).setWidth 32 <<< 24))

/-- A 32-bit CRC given by the catalogue's parameters (R122): polynomial in normal form, initial value, input
and output reflection, final XOR. -/
def catalogueCrc (poly init : U32) (refIn refOut : Bool) (xorOut : U32) (b : Bytes) : U32 :=
  let c := b.foldl (catalogueByte poly refIn) init
  (if refOut = true then c.reverse else c) ^^^ xorOut

/-- The response of CRC32: one 4-byte output, little-endian (R126). -/
def crcResponse (crc : Config.CrcFn) (x : Bytes) : Response :=
  .respond .ok [put32 (crc x).toNat]

/-- CRC32 (R126): no operand length is out of range and no state is written. -/
def execCrc32 (x : Bytes) (s : State) : Host.Outcome State Fault Refusal :=
  .next (s.respond (crcResponse crc32 x))

end Sys2Proof.Machine
end

