-- ==== Sys2Proof/Machine/Operands.lean ====
section
/-!
DEFINITION. The fields of an operand: the frame layout (R80, R81) and the chunk payload layout (R85, R86).
The operand is the data itself, never an address (R95).
-/

namespace Sys2Proof.Machine

/-- F[0], the command id of a frame (R80). -/
def frameCmd (f : Bytes) : Byte := byteAt f 0

/-- F[1:+251], the payload of a frame, pad bytes included (R80). -/
def framePayload (f : Bytes) : Bytes := slice f 1 Config.payloadLen

/-- F[0:+252], the bytes the frame CRC covers (R80). -/
def frameSpan (f : Bytes) : Bytes := slice f 0 Config.crcSpan

/-- le32(F, 252), the CRC a frame carries (R80). -/
def frameCrc (f : Bytes) : Nat := le32 f Config.crcSpan

/-- A frame is intact when the CRC it carries is the CRC of its first 252 bytes (R81). -/
abbrev Intact (crc : Config.CrcFn) (f : Bytes) : Prop := frameCrc f = (crc (frameSpan f)).toNat

/-- C[0], the sub-command (R86). -/
def chunkSub (c : Bytes) : Byte := byteAt c 0

/-- le16(C, 1), the total-chunk-count (R86). -/
def chunkTotal (c : Bytes) : Nat := le16 c 1

/-- le16(C, 3), the chunk-index (R86). -/
def chunkIndex (c : Bytes) : Nat := le16 c 3

/-- le16(C, 5), the chunk-length (R86). -/
def chunkLen (c : Bytes) : Nat := le16 c 5

/-- C[7:+chunk-length], the piece bytes (R86). -/
def chunkPiece (c : Bytes) : Bytes := slice c Config.chunkHdrLen (chunkLen c)

/-- A chunk payload holds its header and the piece its chunk-length names (R182). -/
abbrev ChunkWellFormed (c : Bytes) : Prop :=
  Config.chunkHdrLen ≤ c.length ∧ Config.chunkHdrLen + chunkLen c ≤ c.length

/-- The chunk payload of a piece: header, then piece bytes (R85, R171). -/
def makeChunk (sub : Byte) (total index : Nat) (piece : Bytes) : Bytes :=
  [sub] ++ put16 total ++ put16 index ++ put16 piece.length ++ piece

end Sys2Proof.Machine
end

