-- ==== Sys2Proof/Machine/Chunk.lean ====
section
/-!
DEFINITION. The chunk segmenter (R170 to R174), the chunk reassembler (R180 to R196) and REASM_CLEAR (R200).
-/

namespace Sys2Proof.Machine

/-- N, the piece count of a buffer of L bytes: its CRC is appended before it is split (R171). -/
def pieceCount (len : Nat) : Nat := ceilDiv (len + Config.crcLen) Config.pieceLen

/-- S, the stream a transfer carries: the data, then its CRC (R88, R171). -/
def transferStream (crc : Config.CrcFn) (x : Bytes) : Bytes := x ++ put32 (crc x).toNat

/-- P, piece j of a stream: 240 bytes, or what is left (R171). -/
def streamPiece (s : Bytes) (j : Nat) : Bytes :=
  slice s (Config.pieceLen * j) (min Config.pieceLen (s.length - Config.pieceLen * j))

/-- The chunk payloads of a buffer in index order, numbered from 0, unpadded (R171). -/
def makeChunks (crc : Config.CrcFn) (sub : Byte) (x : Bytes) : List Bytes :=
  (List.range (pieceCount x.length)).map fun j =>
    makeChunk sub (pieceCount x.length) j (streamPiece (transferStream crc x) j)

/-- The response of CHUNK_ENCODE (R171, R173). -/
def chunkEncodeResponse (crc : Config.CrcFn) (sub : Byte) (x : Bytes) : Response :=
  if Config.maxSegInput < x.length then .raise .errLength
  else .respond .ok (makeChunks crc sub x)

/-- The integrity check of a completed accumulation (R188, R189): its last four bytes must be the CRC of the
bytes before them. -/
def completeResponse (crc : Config.CrcFn) (a : Bytes) : Response :=
  if a.length < Config.crcLen then .raise .errIntegrity
  else if le32 a (a.length - Config.crcLen) ≠ (crc (slice a 0 (a.length - Config.crcLen))).toNat then
    .raise .errIntegrity
  else .respond .ok [slice a 0 (a.length - Config.crcLen)]

/-- Start of an accumulation (R183): in IDLE the first chunk's count is recorded; in ACCUM nothing is read of
the count (R194). -/
def Reassembler.start (m : Reassembler) (total : Nat) : Reassembler :=
  match m.phase with
  | .idle => { phase := .accum, expected := BitVec.ofNat 16 total, received := 0, acc := [] }
  | .accum => m

/-- Take one piece (R184, R186 to R191): the capacity first, then append and count, then INCOMPLETE, or complete
and go IDLE whatever the check says. -/
def Reassembler.take (crc : Config.CrcFn) (cap : Nat) (m : Reassembler) (p : Bytes) :
    Reassembler × Response :=
  if cap < m.acc.length + p.length then (m.goIdle, .raise .errOverflow)
  else if m.received.toNat + 1 < m.expected.toNat then
    ({ m.accAppend p with received := m.received + 1 }, .respond .incomplete [])
  else
    ((m.accAppend p).accTake.2.goIdle, completeResponse crc (m.accAppend p).accTake.1)

/-- CHUNK_FEED on the reassembler (R185), its checks in the order of the rule. Every error leaves the
reassembler IDLE (R193). -/
def Reassembler.feed (crc : Config.CrcFn) (cap : Nat) (m : Reassembler) (x : Bytes) :
    Reassembler × Response :=
  if Config.payloadLen < x.length then (m.goIdle, .raise .errLength)
  else if x.length < Config.chunkHdrLen then (m.goIdle, .raise .errMalformed)
  else if x.length < Config.chunkHdrLen + chunkLen x then (m.goIdle, .raise .errMalformed)
  else if m.phase = .idle ∧ chunkTotal x = 0 then (m.goIdle, .raise .errMalformed)
  else (m.start (chunkTotal x)).take crc cap (chunkPiece x)

/-- REASM_CLEAR on the reassembler (R200): an operand is an error that changes nothing. -/
def Reassembler.clear (m : Reassembler) (x : Bytes) : Reassembler × Response :=
  if x.length ≠ 0 then (m, .raise .errLength) else (m.goIdle, .respond .ok [])

/-- CHUNK_ENCODE (R171): the reassembler is neither read nor written (R170). -/
def execChunkEncode (sub : Byte) (x : Bytes) (s : State) : Host.Outcome State Fault Refusal :=
  .next (s.respond (chunkEncodeResponse crc32 sub x))

/-- CHUNK_FEED (R185). -/
def execChunkFeed (x : Bytes) (s : State) : Host.Outcome State Fault Refusal :=
  .next ((s.setReasm (s.reasm.feed crc32 s.cap x).1).respond (s.reasm.feed crc32 s.cap x).2)

/-- REASM_CLEAR (R200). -/
def execReasmClear (x : Bytes) (s : State) : Host.Outcome State Fault Refusal :=
  .next ((s.setReasm (s.reasm.clear x).1).respond (s.reasm.clear x).2)

end Sys2Proof.Machine
end

