-- ==== Sys2Proof/Machine/Packet.lean ====
section
/-!
DEFINITION. The packet frame encoder and decoder (R140 to R149): both read only their request and write only
their response.
-/

namespace Sys2Proof.Machine

/-- The 256-byte frame of a command id and a payload of at most 251 bytes (R80, R142): id, payload, pad bytes of
0x00 (R82), then the CRC of those 252 bytes. -/
def makeFrame (crc : Config.CrcFn) (cmd : Byte) (x : Bytes) : Bytes :=
  let h := [cmd] ++ x ++ zeros (Config.payloadLen - x.length)
  h ++ put32 (crc h).toNat

/-- The response of PKT_ENCODE (R142, R143). -/
def pktEncodeResponse (crc : Config.CrcFn) (cmd : Byte) (x : Bytes) : Response :=
  if Config.payloadLen < x.length then .raise .errLength
  else .respond .ok [makeFrame crc cmd x]

/-- The response of PKT_DECODE (R147, R148): the length, then the CRC, then the command id and the whole
payload. -/
def pktDecodeResponse (crc : Config.CrcFn) (x : Bytes) : Response :=
  if x.length ≠ Config.frameLen then .raise .errLength
  else if ¬ Intact crc x then .raise .errIntegrity
  else { status := .ok, argOut := frameCmd x, outs := [framePayload x] }

/-- PKT_ENCODE (R142). -/
def execPktEncode (cmd : Byte) (x : Bytes) (s : State) : Host.Outcome State Fault Refusal :=
  .next (s.respond (pktEncodeResponse crc32 cmd x))

/-- PKT_DECODE (R147). -/
def execPktDecode (x : Bytes) (s : State) : Host.Outcome State Fault Refusal :=
  .next (s.respond (pktDecodeResponse crc32 x))

end Sys2Proof.Machine
end

