-- ==== Sys2Proof/Machine/Dispatch.lean ====
section
/-! DEFINITION. Dispatch of a decoded operation to its rule (R97), one arm per operation of R96. -/

namespace Sys2Proof.Machine

/-- Perform one operation: the block's atomic step (R3, R66). -/
def exec (i : Instr) (s : State) : Host.Outcome State Fault Refusal :=
  match i with
  | .crc32 x => Sys2Proof.Machine.execCrc32 x s
  | .pktEncode cmd x => Sys2Proof.Machine.execPktEncode cmd x s
  | .pktDecode x => Sys2Proof.Machine.execPktDecode x s
  | .chunkEncode sub x => Sys2Proof.Machine.execChunkEncode sub x s
  | .chunkFeed x => Sys2Proof.Machine.execChunkFeed x s
  | .reasmClear x => Sys2Proof.Machine.execReasmClear x s

end Sys2Proof.Machine
end

