-- ==== Sys2Proof/Machine/Step.lean ====
section
/-!
DEFINITION. One step of the machine: take the host's next event and do what it asks (R3, R70).
-/

namespace Sys2Proof.Machine

/-- One step. With no request at its port the block waits, and nothing changes (R246, R282, log 7). -/
def step (s : State) : Host.Outcome State Fault Refusal :=
  match fetch s with
  | .idle => .next s
  | .run i s' => exec i s'
  | .done s' => .next s'
  | .fault f => .fault f
  | .refused r => .refused r

/-- The state in which the host's next event is the request whose table word is `w` (its operand length and
operand are 0 and empty), the rest of the script after it. It stands for the host issuing that request (log 1). -/
def State.withFetchWord (s : State) (nbits w : Nat) : State :=
  s.setScript (.request (tableBytes nbits w) :: s.script)

end Sys2Proof.Machine
end

