-- ==== Sys2Proof/Machine/Assembler.lean ====
section
/-!
DEFINITION. The host's side of the operation interface: the request lines of R101 as syntax that assembles to
operations, and the host-side macros of R102. The block sees only the requests these expand to.
-/

namespace Sys2Proof.Machine

/-- A byte-string expression of a request line (R101). -/
inductive BytesExpr where
  /-- `h"..."`: the bytes written out. -/
  | hex (b : Bytes)
  /-- `zeros(n)`. -/
  | zeros (n : Nat)
  /-- `ramp(n)`: the bytes i mod 256 for i below n. -/
  | ramp (n : Nat)
  /-- `ascii"..."`: the ASCII codes of the characters. -/
  | ascii (cs : List Char)
  /-- `$k.out[j]`: output j, from 0, of operation k, from 1. -/
  | out (k j : Nat)
  /-- `A ++ B`. -/
  | append (a b : BytesExpr)
  /-- `A[a:+n]`. -/
  | slice (e : BytesExpr) (a n : Nat)
  /-- `A with [i] ^= m`. -/
  | xorAt (e : BytesExpr) (i : Nat) (m : Byte)
  deriving DecidableEq, Repr

/-- `ramp(n)` (R101). -/
def ramp (n : Nat) : Bytes := (List.range n).map fun i => BitVec.ofNat 8 (i % 256)

/-- `A with [i] ^= m` (R101). -/
def xorByte (b : Bytes) (i : Nat) (m : Byte) : Bytes := b.set i (byteAt b i ^^^ m)

/-- The ASCII code of a character (R101). The spec gives a code to ASCII characters only; DESIGN CHOICE: any other
character has none (log 13). -/
def asciiCode (c : Char) : Option Byte :=
  if c.toNat < 128 then some (BitVec.ofNat 8 c.toNat) else none

/-- The bytes of an expression, given the responses the program has had so far (R101). DESIGN CHOICE: it has no
value where it names an output that no response has, bytes past the end of a string (R10), or a character outside
ASCII (log 13). -/
def BytesExpr.eval (resp : List Response) : BytesExpr → Option Bytes
  | .hex b => some b
  | .zeros n => some (Machine.zeros n)
  | .ramp n => some (Machine.ramp n)
  | .ascii cs => cs.mapM asciiCode
  | .out k j => if k = 0 then none else (resp[k - 1]?).bind fun r => r.outs[j]?
  | .append a b => (a.eval resp).bind fun x => (b.eval resp).map fun y => x ++ y
  | .slice e a n =>
    (e.eval resp).bind fun x => if a + n ≤ x.length then some (Machine.slice x a n) else none
  | .xorAt e i m =>
    (e.eval resp).bind fun x => if i < x.length then some (xorByte x i m) else none

/-- One request line (R101). -/
inductive Line where
  /-- `CRC32 <bytes>`. -/
  | crc32 (e : BytesExpr)
  /-- `PKT_ENCODE cmd=<u8>, <bytes>`. -/
  | pktEncode (cmd : Byte) (e : BytesExpr)
  /-- `PKT_DECODE <bytes>`. -/
  | pktDecode (e : BytesExpr)
  /-- `CHUNK_ENCODE sub=<u8>, <bytes>`. -/
  | chunkEncode (sub : Byte) (e : BytesExpr)
  /-- `CHUNK_FEED <bytes>`. -/
  | chunkFeed (e : BytesExpr)
  /-- `REASM_CLEAR`. -/
  | reasmClear
  deriving DecidableEq, Repr

/-- The operation a line names, given the responses the program has had so far (R101). -/
def Line.operation (resp : List Response) : Line → Option Instr
  | .crc32 e => (e.eval resp).map .crc32
  | .pktEncode cmd e => (e.eval resp).map (.pktEncode cmd)
  | .pktDecode e => (e.eval resp).map .pktDecode
  | .chunkEncode sub e => (e.eval resp).map (.chunkEncode sub)
  | .chunkFeed e => (e.eval resp).map .chunkFeed
  | .reasmClear => some (.reasmClear [])

/-- The operation a line requests, given the responses the program has had so far (R101). DESIGN CHOICE: a line
whose bytes are 2^32 or more is not assembled, since its length does not fit the u32 field L and R15 has a check
before every put32; R101 sets no bound (logs 13 and 15). -/
def Line.assemble (resp : List Response) (l : Line) : Option Instr :=
  (l.operation resp).filter fun i => decide i.WellFormed

/-- `SEND_CHUNKED cmd=c, sub=u, D` as operation k of a program, for a buffer of `len` bytes: one CHUNK_ENCODE,
then one PKT_ENCODE per output in index order (R102). -/
def sendChunked (k : Nat) (c u : Byte) (d : BytesExpr) (len : Nat) : List Line :=
  .chunkEncode u d :: (List.range (pieceCount len)).map fun j => .pktEncode c (.out k j)

/-- `RECV_PIECE F` as operation k of a program: decode the frame, then feed its payload (R102). -/
def recvPiece (k : Nat) (f : BytesExpr) : List Line :=
  [.pktDecode f, .chunkFeed (.out k 0)]

/-- Run a program's lines in order, each issued when the response to the one before it is there (R101, R270).
`before` is how many responses the machine had given when the program began, and `$k` counts from there (log 13). A
line that cannot be assembled (for one whose bytes are 2^32 or more, too) is not issued and ends the run, which is
the model's choice (DESIGN CHOICE, log 13): so RECV_PIECE stops after a PKT_DECODE whose
status is not OK, which has no output (R102). -/
def runLinesFrom (before : Nat) : List Line → State → Host.Outcome State Fault Refusal
  | [], s => .next s
  | l :: rest, s =>
    match l.assemble (s.responses.drop before) with
    | none => .next s
    | some i =>
      match step (s.setScript (.request (encode i) :: s.script)) with
      | .next t => runLinesFrom before rest t
      | .fault f => .fault f
      | .refused r => .refused r

/-- Run a program (R101). Its `$k` is the k-th operation of the program, counted from 1. DESIGN CHOICE: R101 does not
speak of a program run on a machine that has already given responses; there too k counts the operations of this
program alone, and the earlier responses have no name in it (log 13). -/
def runLines (p : List Line) (s : State) : Host.Outcome State Fault Refusal :=
  runLinesFrom s.responses.length p s

end Sys2Proof.Machine
end

