-- ==== Sys2Proof/Machine/Duties.lean ====
section
/-!
DEFINITION. The host's side of the port: what a host does in its sessions, what it learns from the responses, and
the duties the block does not check (R266, R271 to R274). The machine runs whether or not they are kept (log 10).
-/

namespace Sys2Proof.Machine

/-- The reassembler after an operation and the response the host gets (R99), for a buffer of `cap` bytes. The
lemma exec_answer says that this is what exec does. -/
def answer (crc : Config.CrcFn) (cap : Nat) (m : Reassembler) : Instr → Reassembler × Response
  | .crc32 x => (m, crcResponse crc x)
  | .pktEncode cmd x => (m, pktEncodeResponse crc cmd x)
  | .pktDecode x => (m, pktDecodeResponse crc x)
  | .chunkEncode sub x => (m, chunkEncodeResponse crc sub x)
  | .chunkFeed x => m.feed crc cap x
  | .reasmClear x => m.clear x

/-- What a host does, and what befalls it, as far as its duties speak of it. -/
inductive HostAct where
  /-- A session starts (R266). -/
  | opens
  /-- The host aborts its operation for a reason the block does not see, such as a time-out of the transport
  (R266). -/
  | aborts
  /-- A request of this operation is issued and its response taken (R270). -/
  | issue (i : Instr)
  /-- A request with a reserved or illegal word is issued, and ERR_BADOP taken (R226, R281). -/
  | reserved
  /-- The platform resets the block between two operations (R261). -/
  | reset
  /-- The platform resets the block while this request is in progress, which gets no response (R261). The duty to
  reissue it is not among those worded here (log 10). -/
  | resetDuring (i : Instr)
  deriving DecidableEq, Repr

/-- What decides the duties of a host at one moment: the block it talks to, and what it did before. -/
structure HostView where
  /-- REASM_CAP of the block (R8). -/
  cap : Nat
  /-- The reassembler of the block. -/
  reasm : Reassembler
  /-- A request was issued since the last reset. -/
  used : Bool
  /-- A REASM_CLEAR is due before the next CHUNK_FEED (R266). -/
  due : Bool
  /-- The payloads PKT_DECODE returned with OK, each with its command id, since the last operation that was
  aborted (R274). -/
  checked : List (Byte × Bytes)
  deriving DecidableEq, Repr

/-- The view of a host whose block of this capacity was just reset: the start of a run (R282). -/
def HostView.afterReset (cap : Nat) : HostView :=
  { cap := cap, reasm := .fresh, used := false, due := false, checked := [] }

/-- The command id of the config command, the one command whose payloads carry chunked transfers in the source
(R84, R273). -/
@[simp] abbrev configCommand : Byte := 3

/-- The sub-command of a config payload that is a piece of a chunked transfer: "data follows" (R89, R273). -/
@[simp] abbrev dataFollows : Byte := 2

/-- R266 and R274: no CHUNK_FEED while a REASM_CLEAR is due. -/
abbrev HostView.clearsWhenDue (v : HostView) : Prop := v.due = false

/-- R271 and R272: the chunk is the next of the transfer under way, or the first of a new one where none is. The
transfer under way is the one in the block's accumulation; DESIGN CHOICE: index and count alone tell it apart
(log 10). -/
abbrev HostView.feedsInOrder (v : HostView) (x : Bytes) : Prop :=
  (v.reasm.phase = .idle → chunkIndex x = 0) ∧
  (v.reasm.phase = .accum →
    chunkIndex x = v.reasm.received.toNat ∧ chunkTotal x = v.reasm.expected.toNat)

/-- R273: the payload came in a frame of the config command, and its sub-command is 2. -/
abbrev HostView.feedsOnlyPieces (v : HostView) (x : Bytes) : Prop :=
  (configCommand, x) ∈ v.checked ∧ chunkSub x = dataFollows

/-- R274: the payload is one that PKT_DECODE returned with OK, in no operation that was aborted since. -/
abbrev HostView.feedsCheckedPayloads (v : HostView) (x : Bytes) : Prop :=
  x ∈ v.checked.map Prod.snd

/-- Every duty on feeding this payload now (R266, R271 to R274). -/
abbrev HostView.mayFeed (v : HostView) (x : Bytes) : Prop :=
  v.clearsWhenDue ∧ v.feedsInOrder x ∧ v.feedsOnlyPieces x ∧ v.feedsCheckedPayloads x

/-- The duties on issuing an operation now: they are on CHUNK_FEED alone. -/
def HostView.mayIssue (v : HostView) : Instr → Bool
  | .chunkFeed x => decide (v.mayFeed x)
  | .crc32 _ => true
  | .pktEncode _ _ => true
  | .pktDecode _ => true
  | .chunkEncode _ _ => true
  | .reasmClear _ => true

/-- The duties on an act. -/
def HostView.permits (v : HostView) : HostAct → Bool
  | .issue i => v.mayIssue i
  | .resetDuring i => v.mayIssue i
  | .opens => true
  | .aborts => true
  | .reserved => true
  | .reset => true

/-- A session starts (R266): a REASM_CLEAR is due, unless the block was reset since anything was asked of it.
DESIGN CHOICE: so is "reset since" read at a session's start (log 10). -/
def HostView.openSession (v : HostView) : HostView := { v with due := v.due || v.used }

/-- The host's operation is aborted (R266, R274): a REASM_CLEAR is due. DESIGN CHOICE: no payload checked before is
fed after it, which is how R237's "does not feed the rest of that transfer" is worded (log 10). -/
def HostView.abort (v : HostView) : HostView := { v with due := true, checked := [] }

/-- The block is reset (R260): no REASM_CLEAR is due (R266). -/
def HostView.resetBlock (v : HostView) : HostView :=
  { v with reasm := .fresh, used := false, due := false }

/-- What a response that is no error tells the host: REASM_CLEAR is done, or a payload is checked. -/
def HostView.learn (v : HostView) (r : Response) : Instr → HostView
  | .reasmClear _ => { v with due := false }
  | .pktDecode _ => { v with checked := r.outs.map (fun x => (r.argOut, x)) ++ v.checked }
  | .crc32 _ => v
  | .pktEncode _ _ => v
  | .chunkEncode _ _ => v
  | .chunkFeed _ => v

/-- The host has the response to an operation. DESIGN CHOICE: every error aborts the host's operation, as R274
says of ERR_INTEGRITY (log 10). -/
def HostView.answered (crc : Config.CrcFn) (v : HostView) (i : Instr) : HostView :=
  let a := answer crc v.cap v.reasm i
  let w := { v with reasm := a.1, used := true }
  if a.2.status.isError then w.abort else w.learn a.2 i

/-- The view after an act. ERR_BADOP changes no state of the block (R226). -/
def HostView.after (crc : Config.CrcFn) (v : HostView) : HostAct → HostView
  | .opens => v.openSession
  | .aborts => v.abort
  | .issue i => v.answered crc i
  | .reserved => { v with used := true }.abort
  | .reset => v.resetBlock
  | .resetDuring _ => v.resetBlock

/-- The host keeps the duties the block does not check, in these acts from this view on (R266, R271 to R274). -/
def keepsHostDuties (crc : Config.CrcFn) : HostView → List HostAct → Bool
  | _, [] => true
  | v, a :: rest => v.permits a && keepsHostDuties crc (v.after crc a) rest

/-- The same as a proposition, for statements. -/
abbrev KeepsHostDuties (crc : Config.CrcFn) (v : HostView) (acts : List HostAct) : Prop :=
  keepsHostDuties crc v acts = true

/-- A host that receives a transfer: for each frame PKT_DECODE, then CHUNK_FEED of the payload it returns (R102). -/
def receiveScript (frames : List Bytes) : List HostAct :=
  (frames.map fun f => [HostAct.issue (.pktDecode f), .issue (.chunkFeed (framePayload f))]).flatten

end Sys2Proof.Machine
end

