-- ==== Sys2Proof/Safety.lean ====
section
/-!
DEFINITION. What claims are stated in: the reassembler's invariant (R33), the order a host must keep at the
port (R270), and the observation of a run (R282). The host duties the block does not check (R266, R271 to R274) are
in Machine/Duties.lean.
-/

namespace Sys2Proof.Machine

/-- The invariant of the reassembler for a buffer of `cap` bytes (R33). -/
abbrev Reassembler.Inv (cap : Nat) (m : Reassembler) : Prop :=
  (m.phase = .idle → m.expected = 0 ∧ m.received = 0 ∧ m.acc = []) ∧
  (m.phase = .accum →
    1 ≤ m.received.toNat ∧ m.received.toNat < m.expected.toNat ∧ m.expected.toNat ≤ Config.maxPieces ∧
    m.acc.length ≤ m.received.toNat * Config.maxPieceField ∧ m.acc.length ≤ cap)

/-- The invariant of the machine (R33). -/
abbrev State.Inv (s : State) : Prop := s.reasm.Inv s.cap

/-- Bytes that are one serialised request, reserved words included (R94, R281). -/
abbrev IsRequest (bs : Bytes) : Prop := 8 ≤ bs.length ∧ (bs.drop 8).length = le32 bs 4

/-- What a host that keeps R270 and sends only requests (R94) can do. -/
def HostEvent.orderly : HostEvent → Bool
  | .request bs => decide (IsRequest bs)
  | .reset => true
  | .resetDuring _ => true
  | .overlap _ _ => false

/-- Every event of the script is one the spec describes. -/
abbrev State.Orderly (s : State) : Prop := ∀ e ∈ s.script, e.orderly = true

/-- The host issues one request, and is owed one response (R99). -/
def HostEvent.isRequest : HostEvent → Bool
  | .request _ => true
  | .reset => false
  | .resetDuring _ => false
  | .overlap _ _ => false

/-- What a run shows when it ends: the list of responses and the final reassembler state (R282). DESIGN CHOICE: the
responses given before a platform reset inside the run are among them (log 16). -/
def State.observation (s : State) : List Response × Reassembler := (s.responses, s.reasm)

end Sys2Proof.Machine
end

