-- ==== Sys2Proof/Certificates/Slice0/Obligations.lean ====
section
/-!
DEFINITION. The statements for the provers. `Sys2Proof.Claims` holds the words they are written in.
-/

namespace Sys2Proof.Claims

open Machine

/-- A request word the block turns away: reserved bits, a reserved op, or an argument byte on an operation that
has none (R97, R98). -/
abbrev IllegalWord (q : Nat) : Prop :=
  bits q 31 16 ≠ 0 ∨ bits q 7 0 ∉ [0x01, 0x02, 0x03, 0x04, 0x05, 0x06] ∨
    (bits q 7 0 ∈ [0x01, 0x03, 0x05, 0x06] ∧ bits q 15 8 ≠ 0)

/-- The serialised request with word q and operand x (R94). -/
abbrev requestBytes (q : Nat) (x : Bytes) : Bytes := put32 q ++ put32 x.length ++ x

/-- A response that R99 can serialise: a u16 count of outputs, each of a u32 length. -/
abbrev Sendable (r : Response) : Prop := r.outs.length < 65536 ∧ ∀ o ∈ r.outs, o.length < 4294967296

/-- Bit n of a byte string, counted in the order the CRC takes them: bit 0 of byte 0 first (R122). -/
abbrev bitAt (b : Bytes) (n : Nat) : Bool := (byteAt b (n / 8)).getLsbD (n % 8)

/-- A byte string with bit n flipped. -/
abbrev flipBit (b : Bytes) (n : Nat) : Bytes := xorByte b (n / 8) (1#8 <<< (n % 8))

/-- The 33 bits of the generator polynomial of R122 in the order the CRC takes them: the leading coefficient first,
then the bits of the reflected form from bit 0 on. -/
abbrev generatorPattern : Nat := 1 + 2 * 0xEDB88320

/-- A byte string with the bits of p XORed into it from bit n on, bit 0 of p at bit n. -/
abbrev xorAtBit (b : Bytes) (n p : Nat) : Bytes :=
  b.mapIdx fun i c => c ^^^ BitVec.ofNat 8 (p * 2 ^ n / 256 ^ i)

/-- A chunk the reassembler accepts in its present phase (R182). -/
abbrev Accepts (m : Reassembler) (x : Bytes) : Prop :=
  x.length ≤ 251 ∧ 7 ≤ x.length ∧ 7 + le16 x 5 ≤ x.length ∧ (m.phase = .idle → 1 ≤ le16 x 1)

/-- The bytes accumulated when a chunk is taken: none in IDLE, where a fresh accumulation starts (R183). -/
abbrev accBefore (m : Reassembler) : Bytes := if m.phase = .idle then [] else m.acc

/-- The pieces counted when a chunk is taken (R183). -/
abbrev countBefore (m : Reassembler) : Nat := if m.phase = .idle then 0 else m.received.toNat

/-- The piece count a chunk is taken against: its own total in IDLE, the recorded one in ACCUM (R183, R194). -/
abbrev expectedOf (m : Reassembler) (x : Bytes) : Nat :=
  if m.phase = .idle then le16 x 1 else m.expected.toNat

/-- The accumulation after a chunk's piece is appended (R186). -/
abbrev accAfter (m : Reassembler) (x : Bytes) : Bytes := accBefore m ++ slice x 7 (le16 x 5)

/-- The chunk is accepted and its piece fits the buffer (R182, R184). -/
abbrev Taken (cap : Nat) (m : Reassembler) (x : Bytes) : Prop :=
  Accepts m x ∧ (accBefore m).length + le16 x 5 ≤ cap

/-- The last four bytes of a completed accumulation are the CRC of the bytes before them (R189). -/
abbrev EndsInCrc (a : Bytes) : Prop :=
  4 ≤ a.length ∧ le32 a (a.length - 4) = (crc32 (slice a 0 (a.length - 4))).toNat

/-- Feed chunks one after another; the reassembler at the end and the responses in order. -/
def feedAll (crc : Config.CrcFn) (cap : Nat) : Reassembler → List Bytes → Reassembler × List Response
  | m, [] => (m, [])
  | m, x :: rest =>
    ((feedAll crc cap (m.feed crc cap x).1 rest).1,
     (m.feed crc cap x).2 :: (feedAll crc cap (m.feed crc cap x).1 rest).2)

/-- The operations that neither read nor write the reassembler. -/
def Stateless : Instr → Prop
  | .crc32 _ => True
  | .pktEncode _ _ => True
  | .pktDecode _ => True
  | .chunkEncode _ _ => True
  | .chunkFeed _ => False
  | .reasmClear _ => False

end Sys2Proof.Claims

open Sys2Proof Sys2Proof.Machine Sys2Proof.Claims

/-! ### Requests -/

/-- Every well-formed operation, with every argument byte and operand a request can carry, is decoded from its
serialised request (R94, R96, R97). -/
def Obligations.DecodeOfEncodeIsIdentity : Prop :=
  ∀ i : Instr, i.WellFormed → decode (encode i) = .ok i

/-- The other direction: the bytes of a decoded request are the one serialisation of the operation. -/
def Obligations.DecodedBytesReencode : Prop :=
  ∀ (bs : Bytes) (i : Instr), decode bs = .ok i → i.WellFormed ∧ encode i = bs

/-- Words written out from opcode_table.json, one for each operation. -/
def Obligations.SampleRequestsDecode : Prop :=
  decode [0x01, 0x00, 0x00, 0x00, 0x01, 0x00, 0x00, 0x00, 0x61] = .ok (.crc32 [0x61]) ∧
  decode [0x02, 0x09, 0x00, 0x00, 0x03, 0x00, 0x00, 0x00, 0x01, 0x02, 0x03] =
    .ok (.pktEncode 0x09 [0x01, 0x02, 0x03]) ∧
  decode [0x03, 0x00, 0x00, 0x00, 0x00, 0x00, 0x00, 0x00] = .ok (.pktDecode []) ∧
  decode [0x04, 0xff, 0x00, 0x00, 0x01, 0x00, 0x00, 0x00, 0xaa] = .ok (.chunkEncode 0xff [0xaa]) ∧
  decode [0x05, 0x00, 0x00, 0x00, 0x02, 0x00, 0x00, 0x00, 0x02, 0x01] = .ok (.chunkFeed [0x02, 0x01]) ∧
  decode [0x06, 0x00, 0x00, 0x00, 0x00, 0x00, 0x00, 0x00] = .ok (.reasmClear [])

/-- The request decode of R97, and the refusals of R98: an illegal word is answered ERR_BADOP with no state
changed, and every other word runs the operation of its op field on its argument byte and operand. -/
def Obligations.RequestWordsAreCheckedFirst : Prop :=
  ∀ (s : State) (q : Nat) (x : Bytes) (rest : List HostEvent),
    q < 2 ^ 32 → x.length < 2 ^ 32 → s.script = .request (requestBytes q x) :: rest →
    (IllegalWord q → step s = .next ((s.setScript rest).respond ⟨.errBadop, 0, []⟩)) ∧
    (¬ IllegalWord q → ∃ i : Instr, i.op = bits q 7 0 ∧ i.arg8.toNat = bits q 15 8 ∧ i.operand = x ∧
      step s = exec i (s.setScript rest))

/-- ERR_BADOP has no other cause: no operation that runs answers it (R226). -/
def Obligations.BadopComesOnlyFromRequestWord : Prop :=
  ∀ (s : State) (q : Nat) (x : Bytes) (rest : List HostEvent),
    q < 2 ^ 32 → x.length < 2 ^ 32 → s.script = .request (requestBytes q x) :: rest →
    ∃ m r, step s = .next (((s.setScript rest).setReasm m).respond r) ∧
      (r.status = .errBadop ↔ IllegalWord q) ∧ (r.status = .errBadop → m = s.reasm)

/-- A request at the port that decodes to an operation is taken, and the step is that operation (R70, R97). -/
def Obligations.StepRunsDecodedRequest : Prop :=
  ∀ (s : State) (bs : Bytes) (rest : List HostEvent) (i : Instr),
    s.script = .request bs :: rest → decode bs = .ok i → step s = exec i (s.setScript rest)

/-- R99: every request gets exactly one response, whose arg_out and outputs are as the rule says, and the
serialisation of a response. The step changes nothing at the port but the request it takes. -/
def Obligations.EveryRequestGetsOneResponse : Prop :=
  (∀ (s : State) (bs : Bytes) (rest : List HostEvent),
    s.script = .request bs :: rest → IsRequest bs →
    ∃ m r, step s = .next (((s.setScript rest).setReasm m).respond r) ∧
      (∀ x, decode bs = .ok (.pktDecode x) → r.status = .ok → r.argOut = byteAt x 0) ∧
      ((∀ x, decode bs ≠ .ok (.pktDecode x)) ∨ r.status ≠ .ok → r.argOut = 0) ∧
      (r.status ≠ .ok → r.outs = []) ∧
      (∀ x, decode bs = .ok (.reasmClear x) → r.outs = []) ∧
      r.outs.length ≤ 65535) ∧
  (∀ r : Response, r.toBytes =
    [r.status.code, r.argOut] ++ put16 r.outs.length ++ (r.outs.map fun o => put32 o.length ++ o).flatten)

/-- The numbers of R100, and that no status has a number above 0x06. -/
def Obligations.StatusCodesAreNumbered : Prop :=
  Status.ok.code = 0x00 ∧ Status.incomplete.code = 0x01 ∧ Status.errLength.code = 0x02 ∧
  Status.errIntegrity.code = 0x03 ∧ Status.errMalformed.code = 0x04 ∧ Status.errOverflow.code = 0x05 ∧
  Status.errBadop.code = 0x06 ∧ ∀ (b : Byte) (st : Status), Status.ofCode? b = some st ↔ st.code = b

/-- The bytes of a response say which response it is. -/
def Obligations.ResponseBytesDetermineResponse : Prop :=
  ∀ r r' : Response, Sendable r → Sendable r' → r.toBytes = r'.toBytes → r = r'

/-! ### Reset, the host and the invariant -/

/-- The reset values of R41. -/
def Obligations.ResetStateIsFresh : Prop :=
  State.reset.reasm.phase = .idle ∧ State.reset.reasm.expected = 0 ∧ State.reset.reasm.received = 0 ∧
    State.reset.reasm.acc = []

/-- The invariant of R33 (an inference the spec marks as its own) holds at reset, whatever REASM_CAP is. -/
def Obligations.ResetMeetsReassemblerInvariant : Prop := State.reset.Inv

/-- The invariant of R33 (an inference the spec marks as its own) is kept by every step from every state, whatever
the host does. -/
def Obligations.StepKeepsReassemblerInvariant : Prop :=
  ∀ s t : State, s.Inv → step s = .next t → t.Inv

/-- Reset between two operations has the effect of R260 on the block, which is that of REASM_CLEAR; the host
gets nothing (R281). That what it got before stays in the run's record is the model's choice, log 16. -/
def Obligations.PlatformResetClearsReassembler : Prop :=
  ∀ (s : State) (rest : List HostEvent), s.script = .reset :: rest →
    step s = .next ((s.setScript rest).setReasm ⟨.idle, 0, 0, []⟩) ∧
    ∃ t, exec (.reasmClear []) s = .next t ∧ t.reasm = ⟨.idle, 0, 0, []⟩

/-- R260 alone: the reassembler after a reset is at the values of R41, and REASM_CLEAR leaves the same. -/
def Obligations.ResetHasEffectOfReasmClear : Prop :=
  ∀ (s : State) (rest : List HostEvent), s.script = .reset :: rest →
    ∃ t u, step s = .next t ∧ exec (.reasmClear []) s = .next u ∧ t.reasm = ⟨.idle, 0, 0, []⟩ ∧ u.reasm = t.reasm

/-- A request in progress at reset gets no response, and the state after it is the reset state (R261; that
nothing of the request is done is the model's reading, log 5, of 93_implementation_defined.md I7; that the responses
given before stay in the run's record is the model's choice, log 16). -/
def Obligations.RequestInProgressAtResetGetsNoResponse : Prop :=
  ∀ (s : State) (bs : Bytes) (rest : List HostEvent), s.script = .resetDuring bs :: rest →
    ∃ t, step s = .next t ∧ t.reasm = State.reset.reasm ∧ t.cap = s.cap ∧ t.responses = s.responses ∧
      t.script = rest

/-- A run with overlapping requests is refused (R270): what the step does is the model's form of the rule's last
sentence, log 4. -/
def Obligations.OverlappingRequestsAreRefused : Prop :=
  ∀ (s : State) (b c : Bytes) (rest : List HostEvent), s.script = .overlap b c :: rest →
    step s = .refused .overlappingRequests

/-- With no request the block waits and nothing changes: no timeout (R246; the step itself is log 7's). -/
def Obligations.WaitingChangesNothing : Prop :=
  ∀ s : State, s.script = [] → step s = .next s

/-- After any response, error or not, the block takes the next request normally (R236): no script of requests
(reserved words included) and resets ever stops the machine. -/
def Obligations.OrderlyScriptNeverStops : Prop :=
  ∀ s : State, s.Orderly → ∃ t, step s = .next t ∧ t.Orderly ∧ t.cap = s.cap

/-- A run of requests and resets ends after as many steps as the host has events, with one response more for each
request issued with no reset under it, and its earlier responses as they were (R62, R99, R282). That a reset inside
the run does not begin another one is the model's choice, log 16. -/
def Obligations.RunGivesOneResponsePerRequest : Prop :=
  ∀ s : State, s.Orderly → ∃ (t : State) (new : List Response),
    Host.Core.run core s.script.length s = .next t ∧ t.script = [] ∧
      t.observation.1 = s.observation.1 ++ new ∧ new.length = s.script.countP HostEvent.isRequest

/-- Only CHUNK_FEED, REASM_CLEAR and reset change the reassembler (R34, R37), and no step changes the
capacity. -/
def Obligations.OnlyFeedClearAndResetChangeReassembler : Prop :=
  ∀ s t : State, step s = .next t → t.cap = s.cap ∧
    (t.reasm ≠ s.reasm → ∃ ev rest, s.script = ev :: rest ∧ t.script = rest ∧
      (ev = .reset ∨ (∃ bs, ev = .resetDuring bs) ∨
        ∃ bs x, ev = .request bs ∧ (decode bs = .ok (.chunkFeed x) ∨ decode bs = .ok (.reasmClear x))))

/-- The responses of earlier operations are never read: two machines that differ only in them do the same, and
give the same responses from there on (R38). That the responses are kept as a record at all is the model's choice,
log 2, and that a reset keeps the record is its choice, log 16; the clause that the step only adds to the record
rests on both. -/
def Obligations.EarlierResponsesAreNeverRead : Prop :=
  ∀ (s t : State) (l : List Response), step s = .next t →
    ∃ new, t.responses = s.responses ++ new ∧
      step { s with responses := l } = .next { t with responses := l ++ new }

/-! ### CRC-32 -/

/-- The function in use is the catalogue's CRC with the parameters of R122, and gives its check values. -/
def Obligations.Crc32HasCatalogueParameters : Prop :=
  (∀ b : Bytes, crc32 b = catalogueCrc 0x04C11DB7#32 0xFFFFFFFF#32 true true 0xFFFFFFFF#32 b) ∧
  crcPoly = 0xEDB88320#32 ∧ crcPoly = (0x04C11DB7#32 : BitVec 32).reverse ∧
  crc32 [0x31, 0x32, 0x33, 0x34, 0x35, 0x36, 0x37, 0x38, 0x39] = 0xCBF43926#32 ∧ crc32 [] = 0x00000000#32

/-- Item 1 of R125: changing exactly one bit changes the CRC. -/
def Obligations.CrcDetectsSingleBitChange : Prop :=
  ∀ (b : Bytes) (n : Nat), n < 8 * b.length → crc32 (flipBit b n) ≠ crc32 b

/-- Item 2 of R125: changing any burst of bits no longer than 32 changes the CRC. Bits are counted in the order
the CRC takes them. -/
def Obligations.CrcDetectsBurstsUpTo32Bits : Prop :=
  ∀ (a b : Bytes) (n : Nat), a.length = b.length → a ≠ b →
    (∀ k, bitAt a k ≠ bitAt b k → n ≤ k ∧ k < n + 32) → crc32 a ≠ crc32 b

/-- Which patterns of 33 bits the CRC cannot see (item 3 of R125, that crc32 is not injective, made exact): XORed into
any string at any bit offset where it fits, the generator's own pattern leaves the CRC unchanged, so two different
strings of any length above 4 share a CRC, and no other pattern but 0 does. -/
def Obligations.OnlyGeneratorPatternKeepsCrc : Prop :=
  ∀ (b : Bytes) (n p : Nat), n + 33 ≤ 8 * b.length → p < 2 ^ 33 →
    (crc32 (xorAtBit b n p) = crc32 b ↔ p = 0 ∨ p = generatorPattern) ∧
    (xorAtBit b n p).length = b.length ∧ (p ≠ 0 → xorAtBit b n p ≠ b)

/-- R126: the CRC32 operation, on every operand and in every state. -/
def Obligations.Crc32OperationAnswersCrc : Prop :=
  (∀ (x : Bytes) (s : State),
    exec (.crc32 x) s = .next (s.respond ⟨.ok, 0, [put32 (crc32 x).toNat]⟩)) ∧
  (∀ (s : State) (q : Nat) (x : Bytes) (rest : List HostEvent),
    q < 2 ^ 32 → x.length < 2 ^ 32 → s.script = .request (requestBytes q x) :: rest → bits q 7 0 = 0x01 →
    (bits q 15 8 ≠ 0 ∨ bits q 31 16 ≠ 0 → step s = .next ((s.setScript rest).respond ⟨.errBadop, 0, []⟩)) ∧
    (bits q 15 8 = 0 ∧ bits q 31 16 = 0 → step s = exec (.crc32 x) (s.setScript rest))) ∧
  put32 (crc32 []).toNat = [0x00, 0x00, 0x00, 0x00] ∧
  put32 (crc32 [0xff, 0xff, 0xff, 0xff]).toNat = [0xff, 0xff, 0xff, 0xff] ∧
  put32 (crc32 [0x31, 0x32, 0x33, 0x34, 0x35, 0x36, 0x37, 0x38, 0x39]).toNat = [0x26, 0x39, 0xf4, 0xcb]

/-! ### Packet frames -/

/-- R142: PKT_ENCODE on every command id, every payload and every state. -/
def Obligations.PktEncodeAnswersFrame : Prop :=
  ∀ (cmd : Byte) (x : Bytes) (s : State),
    (x.length ≤ 251 → ∀ h, h = [cmd] ++ x ++ List.replicate (251 - x.length) 0x00 →
      exec (.pktEncode cmd x) s = .next (s.respond ⟨.ok, 0, [h ++ put32 (crc32 h).toNat]⟩)) ∧
    (251 < x.length → exec (.pktEncode cmd x) s = .next (s.respond ⟨.errLength, 0, []⟩))

/-- R80: the layout of every frame the encoder makes, with any CRC function. -/
def Obligations.FrameLayout : Prop :=
  ∀ (crc : Config.CrcFn) (cmd : Byte) (x f : Bytes),
    x.length ≤ 251 → pktEncodeResponse crc cmd x = ⟨.ok, 0, [f]⟩ →
    f.length = 256 ∧ byteAt f 0 = cmd ∧ slice f 1 251 = x ++ zeros (251 - x.length) ∧
      slice f 252 4 = put32 (crc (slice f 0 252)).toNat ∧ Intact crc f

/-- R147: PKT_DECODE on every operand and in every state. -/
def Obligations.PktDecodeAnswersPayload : Prop :=
  ∀ (x : Bytes) (s : State),
    (x.length ≠ 256 → exec (.pktDecode x) s = .next (s.respond ⟨.errLength, 0, []⟩)) ∧
    (x.length = 256 → le32 x 252 ≠ (crc32 (slice x 0 252)).toNat →
      exec (.pktDecode x) s = .next (s.respond ⟨.errIntegrity, 0, []⟩)) ∧
    (x.length = 256 → le32 x 252 = (crc32 (slice x 0 252)).toNat →
      exec (.pktDecode x) s = .next (s.respond ⟨.ok, byteAt x 0, [slice x 1 251]⟩))

/-- Decoding an encoded frame gives the command id and the padded payload back, with any CRC function (41
section 3, the round trip, an inference the spec marks as its own; 90 C1). -/
def Obligations.FrameRoundTrip : Prop :=
  ∀ (crc : Config.CrcFn) (cmd : Byte) (x : Bytes), x.length ≤ 251 →
    ∃ f, pktEncodeResponse crc cmd x = ⟨.ok, 0, [f]⟩ ∧
      pktDecodeResponse crc f = ⟨.ok, cmd, [x ++ zeros (251 - x.length)]⟩

/-- Flipping any one of the 2048 bits of a frame makes decoding fail (41 section 3, single-bit corruption, an
inference the spec marks as its own). -/
def Obligations.SingleBitFlipBreaksFrame : Prop :=
  ∀ (cmd : Byte) (x : Bytes) (n : Nat), x.length ≤ 251 → n < 2048 →
    ∃ f, pktEncodeResponse crc32 cmd x = ⟨.ok, 0, [f]⟩ ∧
      ∀ s : State, exec (.pktDecode (flipBit f n)) s = .next (s.respond ⟨.errIntegrity, 0, []⟩)

/-- A payload that ends in bytes 0x00 gives the frame of the shorter payload without them (41 section 1, corner
cases, an inference the spec marks as its own). -/
def Obligations.TrailingZerosGiveSameFrame : Prop :=
  ∀ (crc : Config.CrcFn) (cmd : Byte) (x : Bytes) (k : Nat), x.length + k ≤ 251 →
    pktEncodeResponse crc cmd (x ++ zeros k) = pktEncodeResponse crc cmd x

/-- R140, and the same of CRC32 and CHUNK_ENCODE: the response depends on the request alone, nothing but the
response is written, and an operation after it does what it would have done without it. -/
def Obligations.StatelessOperationsDisturbNothing : Prop :=
  ∀ i : Instr, Stateless i → ∃ r, ∀ s : State, exec i s = .next (s.respond r) ∧
    ∀ j : Instr, ∃ m q, exec j s = .next ((s.setReasm m).respond q) ∧
      exec j (s.respond r) = .next (((s.respond r).setReasm m).respond q)

/-! ### The segmenter -/

/-- R171: CHUNK_ENCODE on every sub-command, every buffer and every state. -/
def Obligations.ChunkEncodeAnswersChunks : Prop :=
  ∀ (sub : Byte) (x : Bytes) (s : State),
    (15728396 < x.length → exec (.chunkEncode sub x) s = .next (s.respond ⟨.errLength, 0, []⟩)) ∧
    (x.length ≤ 15728396 → ∀ (st : Bytes) (n : Nat) (p : Nat → Bytes),
      st = x ++ put32 (crc32 x).toNat →
      240 * n < x.length + 4 + 240 → x.length + 4 ≤ 240 * n →
      (∀ j, p j = slice st (240 * j) (min 240 (x.length + 4 - 240 * j))) →
      1 ≤ n ∧ n ≤ 65535 ∧
      exec (.chunkEncode sub x) s = .next (s.respond ⟨.ok, 0, (List.range n).map fun j =>
        [sub] ++ put16 n ++ put16 j ++ put16 (p j).length ++ p j⟩))

/-- The piece lengths of a transfer (42 section 1, piece count and lengths, an inference the spec marks as its
own): all pieces but the last hold 240 bytes, the last between 1 and 240, and every chunk fits a payload. -/
def Obligations.SegmentLengths : Prop :=
  ∀ (crc : Config.CrcFn) (sub : Byte) (x : Bytes), x.length ≤ 15728396 →
    ∃ cs, chunkEncodeResponse crc sub x = ⟨.ok, 0, cs⟩ ∧ cs.length = (x.length + 4 + 239) / 240 ∧
      ∀ (j : Nat) (c : Bytes), cs[j]? = some c →
        c.length = 7 + le16 c 5 ∧ c.length ≤ 247 ∧ 1 ≤ le16 c 5 ∧
        (j + 1 < cs.length → le16 c 5 = 240) ∧
        (j + 1 = cs.length → le16 c 5 = x.length + 4 - 240 * (cs.length - 1))

/-- R88: the pieces of a transfer, in index order, are the data and its CRC; every chunk carries the count, the
sub-command and its index. -/
def Obligations.TransferCarriesDataAndCrc : Prop :=
  ∀ (crc : Config.CrcFn) (sub : Byte) (d : Bytes), d.length ≤ 15728396 →
    ∃ cs, chunkEncodeResponse crc sub d = ⟨.ok, 0, cs⟩ ∧
      (cs.map fun c => slice c 7 (le16 c 5)).flatten = d ++ put32 (crc d).toNat ∧
      ∀ (j : Nat) (c : Bytes), cs[j]? = some c → byteAt c 0 = sub ∧ le16 c 1 = cs.length ∧ le16 c 3 = j

/-! ### The reassembler -/

/-- R185, its checks in the order of the rule, on every operand and in every state. -/
def Obligations.ChunkFeedFollowsRule : Prop :=
  ∀ (x : Bytes) (s : State),
    exec (.chunkFeed x) s = .next (
      if 251 < x.length then (s.setReasm ⟨.idle, 0, 0, []⟩).respond ⟨.errLength, 0, []⟩
      else if x.length < 7 then (s.setReasm ⟨.idle, 0, 0, []⟩).respond ⟨.errMalformed, 0, []⟩
      else if x.length < 7 + le16 x 5 then (s.setReasm ⟨.idle, 0, 0, []⟩).respond ⟨.errMalformed, 0, []⟩
      else if s.reasm.phase = .idle ∧ le16 x 1 = 0 then
        (s.setReasm ⟨.idle, 0, 0, []⟩).respond ⟨.errMalformed, 0, []⟩
      else if s.cap < (accBefore s.reasm).length + le16 x 5 then
        (s.setReasm ⟨.idle, 0, 0, []⟩).respond ⟨.errOverflow, 0, []⟩
      else if countBefore s.reasm + 1 < expectedOf s.reasm x then
        (s.setReasm ⟨.accum, BitVec.ofNat 16 (expectedOf s.reasm x), BitVec.ofNat 16 (countBefore s.reasm + 1),
          accAfter s.reasm x⟩).respond ⟨.incomplete, 0, []⟩
      else if EndsInCrc (accAfter s.reasm x) then
        (s.setReasm ⟨.idle, 0, 0, []⟩).respond
          ⟨.ok, 0, [slice (accAfter s.reasm x) 0 ((accAfter s.reasm x).length - 4)]⟩
      else (s.setReasm ⟨.idle, 0, 0, []⟩).respond ⟨.errIntegrity, 0, []⟩)

/-- A first chunk of a transfer of two or more pieces starts a fresh accumulation and is taken (R183, R186,
R191). -/
def Obligations.FirstChunkStartsAccumulation : Prop :=
  ∀ (x : Bytes) (s : State), s.reasm.phase = .idle → x.length ≤ 251 → 7 ≤ x.length →
    7 + le16 x 5 ≤ x.length → 2 ≤ le16 x 1 → le16 x 5 ≤ s.cap →
    exec (.chunkFeed x) s = .next
      ((s.setReasm ⟨.accum, BitVec.ofNat 16 (le16 x 1), 1, slice x 7 (le16 x 5)⟩).respond ⟨.incomplete, 0, []⟩)

/-- R191: a chunk that is taken and does not complete the transfer is answered INCOMPLETE, and the reassembler is
ACCUM with the piece appended and counted, in either phase and whatever else the chunk carries. -/
def Obligations.PieceBeforeLastIsIncomplete : Prop :=
  ∀ (x : Bytes) (s : State), Taken s.cap s.reasm x → countBefore s.reasm + 1 < expectedOf s.reasm x →
    exec (.chunkFeed x) s = .next
      ((s.setReasm ⟨.accum, BitVec.ofNat 16 (expectedOf s.reasm x), BitVec.ofNat 16 (countBefore s.reasm + 1),
        accAfter s.reasm x⟩).respond ⟨.incomplete, 0, []⟩)

/-- The chunk that completes a transfer (R187 to R190): OK with the data if the accumulation ends in the CRC of
what stands before it, ERR_INTEGRITY otherwise, also when it is shorter than four bytes; IDLE either way. -/
def Obligations.LastChunkCompletesTransfer : Prop :=
  ∀ (x : Bytes) (s : State), Taken s.cap s.reasm x → countBefore s.reasm + 1 = expectedOf s.reasm x →
    (EndsInCrc (accAfter s.reasm x) →
      exec (.chunkFeed x) s = .next ((s.setReasm ⟨.idle, 0, 0, []⟩).respond
        ⟨.ok, 0, [slice (accAfter s.reasm x) 0 ((accAfter s.reasm x).length - 4)]⟩)) ∧
    (¬ EndsInCrc (accAfter s.reasm x) →
      exec (.chunkFeed x) s = .next ((s.setReasm ⟨.idle, 0, 0, []⟩).respond ⟨.errIntegrity, 0, []⟩))

/-- R184: a piece that would pass REASM_CAP is answered ERR_OVERFLOW, nothing is appended and the reassembler
is IDLE. -/
def Obligations.PieceBeyondCapacityOverflows : Prop :=
  ∀ (x : Bytes) (s : State), Accepts s.reasm x → s.cap < (accBefore s.reasm).length + le16 x 5 →
    exec (.chunkFeed x) s = .next ((s.setReasm ⟨.idle, 0, 0, []⟩).respond ⟨.errOverflow, 0, []⟩)

/-- A block whose capacity is at least 65535 x 244 bytes never overflows (42 section 2, capacity, an inference the
spec marks as its own). -/
def Obligations.LargeBufferNeverOverflows : Prop :=
  ∀ (x : Bytes) (s : State), s.Inv → 15990540 ≤ s.cap →
    ∃ m r, exec (.chunkFeed x) s = .next ((s.setReasm m).respond r) ∧ r.status ≠ .errOverflow

/-- R193: every CHUNK_FEED error leaves the reassembler IDLE, and ERR_BADOP changes nothing. -/
def Obligations.FeedErrorDiscardsAccumulation : Prop :=
  (∀ (x : Bytes) (s : State), ∃ m r, exec (.chunkFeed x) s = .next ((s.setReasm m).respond r) ∧
    (r.status.isError = true → m = ⟨.idle, 0, 0, []⟩)) ∧
  (∀ (s : State) (q : Nat) (x : Bytes) (rest : List HostEvent),
    q < 2 ^ 32 → x.length < 2 ^ 32 → s.script = .request (requestBytes q x) :: rest → IllegalWord q →
    step s = .next ((s.setScript rest).respond ⟨.errBadop, 0, []⟩))

/-- R181: of two chunk payloads with the same chunk-length and piece bytes (and, in IDLE, the same count), the
reassembler cannot tell one from the other, whatever sub-command, index, later count and pad they carry. -/
def Obligations.FeedIgnoresOtherFields : Prop :=
  ∀ (x y : Bytes) (s : State), x.length ≤ 251 → y.length ≤ 251 → 7 ≤ x.length → 7 ≤ y.length →
    7 + le16 x 5 ≤ x.length → 7 + le16 y 5 ≤ y.length → le16 x 5 = le16 y 5 →
    slice x 7 (le16 x 5) = slice y 7 (le16 y 5) → (s.reasm.phase = .idle → le16 x 1 = le16 y 1) →
    exec (.chunkFeed x) s = exec (.chunkFeed y) s

/-- A repeated chunk is taken again: it counts once more and its bytes are appended again (R192, 20 section 3). -/
def Obligations.RepeatedChunkIsTakenAgain : Prop :=
  ∀ (x : Bytes) (s : State), s.reasm.phase = .idle → x.length ≤ 251 → 7 ≤ x.length →
    7 + le16 x 5 ≤ x.length → 3 ≤ le16 x 1 → 2 * le16 x 5 ≤ s.cap →
    ∃ t u, exec (.chunkFeed x) s = .next t ∧ exec (.chunkFeed x) t = .next u ∧
      u.reasm.received = 2 ∧ u.reasm.acc = slice x 7 (le16 x 5) ++ slice x 7 (le16 x 5)

/-- The accumulation is the pieces in arrival order (R75, R187, R192, R194): any accepted chunks fed from IDLE,
whatever they carry besides their piece, build their pieces' concatenation, counted against the first chunk's
total; one short of it the transfer waits, and at it the concatenation is checked and the block is IDLE. -/
def Obligations.AccumulationIsArrivalOrder : Prop :=
  ∀ (crc : Config.CrcFn) (cap : Nat) (m : Reassembler) (first : Bytes) (more xs : List Bytes) (all : Bytes),
    m.phase = .idle → xs = first :: more →
    (∀ x ∈ xs, x.length ≤ 251 ∧ 7 ≤ x.length ∧ 7 + le16 x 5 ≤ x.length) →
    all = (xs.map fun x => slice x 7 (le16 x 5)).flatten → all.length ≤ cap →
    (xs.length < le16 first 1 → feedAll crc cap m xs =
      (⟨.accum, BitVec.ofNat 16 (le16 first 1), BitVec.ofNat 16 xs.length, all⟩,
        List.replicate xs.length ⟨.incomplete, 0, []⟩)) ∧
    (xs.length = le16 first 1 → feedAll crc cap m xs =
      (⟨.idle, 0, 0, []⟩, List.replicate more.length ⟨.incomplete, 0, []⟩ ++
        [if 4 ≤ all.length ∧ le32 all (all.length - 4) = (crc (all.take (all.length - 4))).toNat then
          ⟨.ok, 0, [all.take (all.length - 4)]⟩ else ⟨.errIntegrity, 0, []⟩]))

/-- R200 on every operand and in every state, and that it is idempotent. -/
def Obligations.ReasmClearDiscardsAccumulation : Prop :=
  ∀ (x : Bytes) (s : State),
    (x.length = 0 → exec (.reasmClear x) s = .next ((s.setReasm ⟨.idle, 0, 0, []⟩).respond ⟨.ok, 0, []⟩) ∧
      ∀ t, exec (.reasmClear x) s = .next t →
        exec (.reasmClear x) t = .next (t.respond ⟨.ok, 0, []⟩)) ∧
    (x.length ≠ 0 → exec (.reasmClear x) s = .next (s.respond ⟨.errLength, 0, []⟩))

/-! ### Causes of each status -/

/-- R222: every cause of ERR_LENGTH, over all operations. -/
def Obligations.LengthErrorCauses : Prop :=
  ∀ (i : Instr) (s : State), ∃ m r, exec i s = .next ((s.setReasm m).respond r) ∧
    (r.status = .errLength ↔
      (∃ cmd x, i = .pktEncode cmd x ∧ 251 < x.length) ∨ (∃ x, i = .pktDecode x ∧ x.length ≠ 256) ∨
      (∃ sub x, i = .chunkEncode sub x ∧ 15728396 < x.length) ∨ (∃ x, i = .chunkFeed x ∧ 251 < x.length) ∨
      (∃ x, i = .reasmClear x ∧ x.length ≠ 0))

/-- R223: every cause of ERR_INTEGRITY, over all operations. A CHUNK_FEED reports it only once its piece is taken
and completes the transfer (R228). -/
def Obligations.IntegrityErrorCauses : Prop :=
  ∀ (i : Instr) (s : State), ∃ m r, exec i s = .next ((s.setReasm m).respond r) ∧
    (r.status = .errIntegrity ↔
      (∃ x, i = .pktDecode x ∧ x.length = 256 ∧ le32 x 252 ≠ (crc32 (slice x 0 252)).toNat) ∨
      (∃ x, i = .chunkFeed x ∧ Taken s.cap s.reasm x ∧ expectedOf s.reasm x ≤ countBefore s.reasm + 1 ∧
        ((accAfter s.reasm x).length < 4 ∨ ¬ EndsInCrc (accAfter s.reasm x))))

/-- R224: every cause of ERR_MALFORMED, over all operations, where the length is in range (R228). -/
def Obligations.MalformedErrorCauses : Prop :=
  ∀ (i : Instr) (s : State), ∃ m r, exec i s = .next ((s.setReasm m).respond r) ∧
    (r.status = .errMalformed ↔ ∃ x, i = .chunkFeed x ∧ x.length ≤ 251 ∧
      (x.length < 7 ∨ x.length < 7 + le16 x 5 ∨ (s.reasm.phase = .idle ∧ le16 x 1 = 0)))

/-- R225: the cause of ERR_OVERFLOW, over all operations, where the chunk is well-formed (R228). -/
def Obligations.OverflowErrorCause : Prop :=
  ∀ (i : Instr) (s : State), ∃ m r, exec i s = .next ((s.setReasm m).respond r) ∧
    (r.status = .errOverflow ↔ ∃ x, i = .chunkFeed x ∧ Accepts s.reasm x ∧
      s.cap < (accBefore s.reasm).length + le16 x 5)

/-! ### Transfers and the host -/

/-- The chunks of a buffer, each fed as it is or as the payload of a frame it was carried in, come back as the
buffer (42 section 4, round trip, an inference the spec marks as its own), run by the machine request by
request. -/
def Obligations.ChunkedTransferRoundTrip : Prop :=
  ∀ (s : State) (d : Bytes) (sub : Byte) (cs fed : List Bytes) (rest : List HostEvent),
    d.length ≤ 15728396 → d.length + 4 ≤ s.cap → s.reasm.phase = .idle →
    chunkEncodeResponse crc32 sub d = ⟨.ok, 0, cs⟩ →
    List.Forall₂ (fun c x => x = c ∨ ∃ cmd f, pktEncodeResponse crc32 cmd c = ⟨.ok, 0, [f]⟩ ∧
      pktDecodeResponse crc32 f = ⟨.ok, cmd, [x]⟩) cs fed →
    s.script = (fed.map fun x => .request (encode (.chunkFeed x))) ++ rest →
    Host.Core.run core fed.length s = .next
      { reasm := ⟨.idle, 0, 0, []⟩, cap := s.cap, script := rest,
        responses := s.responses ++
          (List.replicate (fed.length - 1) ⟨.incomplete, 0, []⟩ ++ [⟨.ok, 0, [d]⟩]) }

/-- SEND_CHUNKED (R102) as a program of its own: the chunks, then one frame for each in index order, and the
reassembler untouched. That its `$1` is its own first operation whatever responses the machine gave before is the
model's choice (log 13). -/
def Obligations.SendChunkedAnswersFrames : Prop :=
  ∀ (s : State) (c u : Byte) (d : Bytes), d.length ≤ 15728396 →
    ∃ cs, chunkEncodeResponse crc32 u d = ⟨.ok, 0, cs⟩ ∧
      runLines (sendChunked 1 c u (.hex d) d.length) s = .next
        { s with responses := s.responses ++ ⟨.ok, 0, cs⟩ :: cs.map fun p => pktEncodeResponse crc32 c p }

/-- RECV_PIECE (R102) as a program of its own: an intact frame's payload is fed; any other operand is reported and
nothing is fed. That its `$1` is its own first operation whatever responses the machine gave before is the model's
choice (log 13). -/
def Obligations.RecvPieceFeedsOnlyIntactFrames : Prop :=
  ∀ (s : State) (f : Bytes), f.length < 2 ^ 32 →
    (f.length = 256 ∧ le32 f 252 = (crc32 (slice f 0 252)).toNat →
      ∃ r, pktDecodeResponse crc32 f = r ∧ r.status = .ok ∧
        runLines (recvPiece 1 (.hex f)) s = exec (.chunkFeed (slice f 1 251)) (s.respond r)) ∧
    (f.length ≠ 256 ∨ le32 f 252 ≠ (crc32 (slice f 0 252)).toNat →
      ∃ r, pktDecodeResponse crc32 f = r ∧ r.status ≠ .ok ∧
        runLines (recvPiece 1 (.hex f)) s = .next (s.respond r))

/-- A host that receives a transfer in frames, in order, where the buffer has room for it: from every view, after
a REASM_CLEAR or a reset, also across the start of a session, it keeps the duties of R266 and R271 to R274 where the
frames are config frames and the sub-command is 2, and breaks them for every other command id or sub-command if
nothing was checked before. The wording of the duties is the model's (log 10). -/
def Obligations.ReceivingTransferKeepsHostDuties : Prop :=
  ∀ (v : HostView) (c u : Byte) (d : Bytes) (start : List HostAct),
    d.length ≤ 15728396 → d.length + 4 ≤ v.cap →
    start ∈ [[.issue (.reasmClear [])], [.opens, .issue (.reasmClear [])], [.reset], [.reset, .opens]] →
    let acts := start ++ receiveScript ((chunkEncodeResponse crc32 u d).outs.map (makeFrame crc32 c))
    (c = 3 ∧ u = 2 → KeepsHostDuties crc32 v acts) ∧
    (v.checked = [] → ¬ (c = 3 ∧ u = 2) → ¬ KeepsHostDuties crc32 v acts)

/-- After an operation was aborted, by the host itself or by an error response to any operation (ERR_INTEGRITY of
PKT_DECODE and of CHUNK_FEED among them), and at a session's start where the block was asked anything since its
last reset, a CHUNK_FEED with neither a REASM_CLEAR nor a reset before it breaks the host's duties (R266, R274). The
wording of the duties, and that every error aborts, is the model's (log 10). -/
def Obligations.FeedNeedsClearWhenDue : Prop :=
  ∀ (crc : Config.CrcFn) (v : HostView) (a : HostAct) (mid post : List HostAct) (x : Bytes),
    (a = .aborts ∨ a = .reserved ∨ (a = .opens ∧ v.used = true) ∨
      ∃ i, a = .issue i ∧ (answer crc v.cap v.reasm i).2.status.isError = true) →
    (∀ b ∈ mid, b ≠ .issue (.reasmClear []) ∧ b ≠ .reset ∧ ∀ i, b ≠ .resetDuring i) →
    ¬ KeepsHostDuties crc v ([a] ++ mid ++ [.issue (.chunkFeed x)] ++ post)

/-- A host that keeps its duties, with nothing checked before, feeds only payloads with sub-command 2 that an
earlier PKT_DECODE of a config frame returned with OK (R273, R274, as the model words them, log 10). -/
def Obligations.FedPayloadsAreCheckedConfigPieces : Prop :=
  ∀ (crc : Config.CrcFn) (v : HostView) (pre post : List HostAct) (x : Bytes), v.checked = [] →
    KeepsHostDuties crc v (pre ++ [.issue (.chunkFeed x)] ++ post) →
    byteAt x 0 = 2 ∧
      ∃ f, HostAct.issue (.pktDecode f) ∈ pre ∧ pktDecodeResponse crc f = ⟨.ok, 3, [x]⟩
end

