-- ==== Sys2Proof/Laws/Assembler.lean ====
section
/-!
SUPPORT. What assembling a request line can answer.
-/

namespace Sys2Proof.Machine

/-- A line assembles to the operation it names, if a request can carry it (R15, R94, R101). -/
theorem Line.assemble_eq_some {resp : List Response} {l : Line} {i : Instr} :
    l.assemble resp = some i ↔ l.operation resp = some i ∧ i.WellFormed := by
  simp [Line.assemble, Option.filter_eq_some_iff]

/-- A line that names an operation no request can carry is not assembled. -/
theorem Line.assemble_eq_none_of_long {resp : List Response} {l : Line} {i : Instr}
    (h : l.operation resp = some i) (hi : ¬ i.WellFormed) : l.assemble resp = none := by
  rw [Line.assemble, h, Option.filter_some, if_neg (by simpa using hi)]

end Sys2Proof.Machine
end

