-- ==== Sys2Proof/Laws/Bytes.lean ====
section
/-!
SUPPORT. What the byte-string primitives do: lengths, and that the little-endian forms read back what they wrote.
-/

namespace Sys2Proof.Machine

@[simp] theorem zeros_length (n : Nat) : (zeros n).length = n := by simp [zeros]
@[simp] theorem put16_length (v : Nat) : (put16 v).length = 2 := rfl
@[simp] theorem put32_length (v : Nat) : (put32 v).length = 4 := rfl
@[simp] theorem slice_length (b : Bytes) (a n : Nat) : (slice b a n).length = min n (b.length - a) := by
  simp [slice]
@[simp] theorem leBytes_length (n v : Nat) : (leBytes n v).length = n := by
  induction n generalizing v with
  | zero => rfl
  | succ n ih => simp [leBytes, ih]

theorem byteAt_append_left {a : Bytes} (b : Bytes) {i : Nat} (h : i < a.length) :
    byteAt (a ++ b) i = byteAt a i := by
  simp [byteAt, List.getElem?_append_left h]

theorem byteAt_append_right {a : Bytes} (b : Bytes) {i : Nat} (h : a.length ≤ i) :
    byteAt (a ++ b) i = byteAt b (i - a.length) := by
  simp [byteAt, List.getElem?_append_right h]

theorem le16_lt (b : Bytes) (i : Nat) : le16 b i < 65536 := by
  have := (byteAt b i).isLt
  have := (byteAt b (i + 1)).isLt
  simp only [le16]; omega

theorem le32_lt (b : Bytes) (i : Nat) : le32 b i < 4294967296 := by
  have := (byteAt b i).isLt
  have := (byteAt b (i + 1)).isLt
  have := (byteAt b (i + 2)).isLt
  have := (byteAt b (i + 3)).isLt
  simp only [le32]; omega

theorem le16_append_right {a : Bytes} (b : Bytes) {i : Nat} (h : a.length ≤ i) :
    le16 (a ++ b) i = le16 b (i - a.length) := by
  have h1 : i + 1 - a.length = i - a.length + 1 := by omega
  simp only [le16, byteAt_append_right b h, byteAt_append_right b (show a.length ≤ i + 1 by omega), h1]

theorem le16_append_left {a : Bytes} (b : Bytes) {i : Nat} (h : i + 1 < a.length) :
    le16 (a ++ b) i = le16 a i := by
  simp only [le16, byteAt_append_left b (show i < a.length by omega), byteAt_append_left b h]

theorem le32_append_right {a : Bytes} (b : Bytes) {i : Nat} (h : a.length ≤ i) :
    le32 (a ++ b) i = le32 b (i - a.length) := by
  have h1 : i + 1 - a.length = i - a.length + 1 := by omega
  have h2 : i + 2 - a.length = i - a.length + 2 := by omega
  have h3 : i + 3 - a.length = i - a.length + 3 := by omega
  simp only [le32, byteAt_append_right b h, byteAt_append_right b (show a.length ≤ i + 1 by omega),
    byteAt_append_right b (show a.length ≤ i + 2 by omega),
    byteAt_append_right b (show a.length ≤ i + 3 by omega), h1, h2, h3]

theorem le16_put16 {v : Nat} (b : Bytes) (h : v < 65536) : le16 (put16 v ++ b) 0 = v := by
  simp [le16, put16, byteAt, bits]; omega

theorem le32_put32 {v : Nat} (b : Bytes) (h : v < 4294967296) : le32 (put32 v ++ b) 0 = v := by
  simp [le32, put32, byteAt, bits]; omega

theorem slice_zero (b : Bytes) (n : Nat) : slice b 0 n = b.take n := by simp [slice]

theorem slice_append_right {a : Bytes} (b : Bytes) {i : Nat} (n : Nat) (h : a.length ≤ i) :
    slice (a ++ b) i n = slice b (i - a.length) n := by
  simp [slice, List.drop_append, List.drop_eq_nil_of_le h]

theorem slice_append_left {a : Bytes} (b : Bytes) {i n : Nat} (h : i + n ≤ a.length) :
    slice (a ++ b) i n = slice a i n := by
  simp only [slice]
  rw [List.drop_append_of_le_length (by omega), List.take_append_of_le_length (by simp; omega)]

end Sys2Proof.Machine
end

