-- ==== Sys2Proof/Laws/State.lean ====
section
/-!
SUPPORT. The fields of the state after each named update, so that no later proof unfolds a record update.
-/

namespace Sys2Proof.Machine

@[simp] theorem State.respond_reasm (s : State) (r : Response) : (s.respond r).reasm = s.reasm := rfl
@[simp] theorem State.respond_cap (s : State) (r : Response) : (s.respond r).cap = s.cap := rfl
@[simp] theorem State.respond_script (s : State) (r : Response) : (s.respond r).script = s.script := rfl
@[simp] theorem State.respond_responses (s : State) (r : Response) :
    (s.respond r).responses = s.responses ++ [r] := rfl

@[simp] theorem State.raise_reasm (s : State) (e : Status) : (s.raise e).reasm = s.reasm := rfl
@[simp] theorem State.raise_cap (s : State) (e : Status) : (s.raise e).cap = s.cap := rfl
@[simp] theorem State.raise_script (s : State) (e : Status) : (s.raise e).script = s.script := rfl
@[simp] theorem State.raise_responses (s : State) (e : Status) :
    (s.raise e).responses = s.responses ++ [.raise e] := rfl

@[simp] theorem State.setReasm_reasm (s : State) (m : Reassembler) : (s.setReasm m).reasm = m := rfl
@[simp] theorem State.setReasm_cap (s : State) (m : Reassembler) : (s.setReasm m).cap = s.cap := rfl
@[simp] theorem State.setReasm_script (s : State) (m : Reassembler) : (s.setReasm m).script = s.script := rfl
@[simp] theorem State.setReasm_responses (s : State) (m : Reassembler) :
    (s.setReasm m).responses = s.responses := rfl
@[simp] theorem State.setReasm_self (s : State) : s.setReasm s.reasm = s := rfl

@[simp] theorem State.setScript_reasm (s : State) (l : List HostEvent) : (s.setScript l).reasm = s.reasm := rfl
@[simp] theorem State.setScript_cap (s : State) (l : List HostEvent) : (s.setScript l).cap = s.cap := rfl
@[simp] theorem State.setScript_script (s : State) (l : List HostEvent) : (s.setScript l).script = l := rfl
@[simp] theorem State.setScript_responses (s : State) (l : List HostEvent) :
    (s.setScript l).responses = s.responses := rfl

@[simp] theorem Reassembler.goIdle_eq_fresh (m : Reassembler) : m.goIdle = .fresh := rfl
@[simp] theorem Reassembler.accTake_fst (m : Reassembler) : m.accTake.1 = m.acc := rfl
@[simp] theorem Reassembler.accTake_snd (m : Reassembler) : m.accTake.2 = m.accClear := rfl
@[simp] theorem Reassembler.accAppend_phase (m : Reassembler) (p : Bytes) : (m.accAppend p).phase = m.phase := rfl
@[simp] theorem Reassembler.accAppend_expected (m : Reassembler) (p : Bytes) :
    (m.accAppend p).expected = m.expected := rfl
@[simp] theorem Reassembler.accAppend_received (m : Reassembler) (p : Bytes) :
    (m.accAppend p).received = m.received := rfl
@[simp] theorem Reassembler.accAppend_acc (m : Reassembler) (p : Bytes) : (m.accAppend p).acc = m.acc ++ p := rfl

@[simp] theorem Reassembler.fresh_phase : Reassembler.fresh.phase = .idle := rfl
@[simp] theorem Reassembler.fresh_expected : Reassembler.fresh.expected = 0 := rfl
@[simp] theorem Reassembler.fresh_received : Reassembler.fresh.received = 0 := rfl
@[simp] theorem Reassembler.fresh_acc : Reassembler.fresh.acc = [] := rfl

@[simp] theorem State.platformReset_reasm (s : State) : s.platformReset.reasm = .fresh := rfl
@[simp] theorem State.platformReset_cap (s : State) : s.platformReset.cap = s.cap := rfl
@[simp] theorem State.platformReset_script (s : State) : s.platformReset.script = s.script := rfl
@[simp] theorem State.platformReset_responses (s : State) : s.platformReset.responses = s.responses := rfl

@[simp] theorem Response.respond_status (st : Status) (o : List Bytes) : (Response.respond st o).status = st := rfl
@[simp] theorem Response.respond_argOut (st : Status) (o : List Bytes) : (Response.respond st o).argOut = 0 := rfl
@[simp] theorem Response.respond_outs (st : Status) (o : List Bytes) : (Response.respond st o).outs = o := rfl
@[simp] theorem Response.raise_status (e : Status) : (Response.raise e).status = e := rfl
@[simp] theorem Response.raise_argOut (e : Status) : (Response.raise e).argOut = 0 := rfl
@[simp] theorem Response.raise_outs (e : Status) : (Response.raise e).outs = [] := rfl

end Sys2Proof.Machine
end

