-- ==== Sys2Proof/Laws/Chunk.lean ====
section
/-!
SUPPORT. Everything that taking a piece and feeding a chunk can do, one case list each, and the fields of a chunk
the segmenter makes.
-/

namespace Sys2Proof.Machine

theorem chunkTotal_lt (x : Bytes) : chunkTotal x < 65536 := le16_lt x 1
theorem chunkLen_lt (x : Bytes) : chunkLen x < 65536 := le16_lt x 5

/-- The piece of a chunk whose chunk-length stays within its operand has that length (R86). -/
theorem chunkPiece_length {x : Bytes} (h : 7 + chunkLen x ≤ x.length) :
    (chunkPiece x).length = chunkLen x := by
  simp [chunkPiece]; omega

@[simp] theorem completeResponse_argOut (crc : Config.CrcFn) (a : Bytes) :
    (completeResponse crc a).argOut = 0 := by
  unfold completeResponse; split
  · rfl
  · split <;> rfl

/-- A completed transfer answers OK with the data, or ERR_INTEGRITY (R189). -/
theorem completeResponse_cases (crc : Config.CrcFn) (a : Bytes) :
    (completeResponse crc a = .raise .errIntegrity ∧
      (a.length < 4 ∨ le32 a (a.length - 4) ≠ (crc (a.take (a.length - 4))).toNat)) ∨
    (completeResponse crc a = .respond .ok [a.take (a.length - 4)] ∧
      4 ≤ a.length ∧ le32 a (a.length - 4) = (crc (a.take (a.length - 4))).toNat) := by
  unfold completeResponse
  simp only [slice_zero]
  split
  · exact .inl ⟨rfl, .inl (by simpa using ‹_›)⟩
  · split
    · exact .inl ⟨rfl, .inr (by simpa using ‹_›)⟩
    · rename_i h4 hc
      exact .inr ⟨rfl, by simpa using h4, not_not.mp hc⟩

/-- Everything taking a piece can do (R184, R186 to R191). -/
theorem Reassembler.take_cases (crc : Config.CrcFn) (cap : Nat) (m : Reassembler) (p : Bytes) :
    (cap < m.acc.length + p.length ∧ m.take crc cap p = (.fresh, .raise .errOverflow)) ∨
    (m.acc.length + p.length ≤ cap ∧ m.received.toNat + 1 < m.expected.toNat ∧
      m.take crc cap p =
        (⟨m.phase, m.expected, m.received + 1, m.acc ++ p⟩, .respond .incomplete [])) ∨
    (m.acc.length + p.length ≤ cap ∧ m.expected.toNat ≤ m.received.toNat + 1 ∧
      m.take crc cap p = (.fresh, completeResponse crc (m.acc ++ p))) := by
  unfold Reassembler.take
  split
  · exact .inl ⟨‹_›, rfl⟩
  · split
    · exact .inr (.inl ⟨by omega, ‹_›, rfl⟩)
    · exact .inr (.inr ⟨by omega, by omega, rfl⟩)

/-- Everything feeding a chunk can do (R185): one of the four errors of its header and length, or its piece is
taken. -/
theorem Reassembler.feed_cases (crc : Config.CrcFn) (cap : Nat) (m : Reassembler) (x : Bytes) :
    (251 < x.length ∧ m.feed crc cap x = (.fresh, .raise .errLength)) ∨
    (x.length ≤ 251 ∧ (x.length < 7 ∨ x.length < 7 + chunkLen x ∨ (m.phase = .idle ∧ chunkTotal x = 0)) ∧
      m.feed crc cap x = (.fresh, .raise .errMalformed)) ∨
    (x.length ≤ 251 ∧ 7 + chunkLen x ≤ x.length ∧ ¬ (m.phase = .idle ∧ chunkTotal x = 0) ∧
      m.feed crc cap x = (m.start (chunkTotal x)).take crc cap (chunkPiece x)) := by
  unfold Reassembler.feed
  simp only [Config.payloadLen, Config.chunkHdrLen]
  split
  · exact .inl ⟨‹_›, rfl⟩
  · split
    · exact .inr (.inl ⟨by omega, .inl ‹_›, rfl⟩)
    · split
      · exact .inr (.inl ⟨by omega, .inr (.inl ‹_›), rfl⟩)
      · split
        · exact .inr (.inl ⟨by omega, .inr (.inr ‹_›), rfl⟩)
        · exact .inr (.inr ⟨by omega, by omega, ‹_›, rfl⟩)

@[simp] theorem Reassembler.start_idle {m : Reassembler} (total : Nat) (h : m.phase = .idle) :
    m.start total = ⟨.accum, BitVec.ofNat 16 total, 0, []⟩ := by
  simp [Reassembler.start, h]

@[simp] theorem Reassembler.start_accum {m : Reassembler} (total : Nat) (h : m.phase = .accum) :
    m.start total = m := by
  simp [Reassembler.start, h]

/-- A chunk that is accepted goes on to have its piece taken (R182, R183). -/
theorem Reassembler.feed_accepted (crc : Config.CrcFn) (cap : Nat) {m : Reassembler} {x : Bytes}
    (hl : x.length ≤ 251) (hp : 7 + le16 x 5 ≤ x.length) (ht : m.phase = .idle → 1 ≤ le16 x 1) :
    m.feed crc cap x = (m.start (le16 x 1)).take crc cap (slice x 7 (le16 x 5)) := by
  obtain ⟨h, -⟩ | ⟨-, h, -⟩ | ⟨-, -, -, e⟩ := m.feed_cases crc cap x
  · omega
  · simp only [chunkLen, chunkTotal] at h
    rcases h with h | h | ⟨h, h'⟩
    · omega
    · omega
    · have := ht h; omega
  · exact e

/-- Taking piece k of n, counted from 0, where it fits (R186, R187, R191). -/
theorem Reassembler.take_counted (crc : Config.CrcFn) (cap : Nat) {n k : Nat} {a p : Bytes}
    (hn : n < 65536) (hk : k < n) (hc : a.length + p.length ≤ cap) :
    Reassembler.take crc cap ⟨.accum, BitVec.ofNat 16 n, BitVec.ofNat 16 k, a⟩ p =
      if k + 1 < n then
        (⟨.accum, BitVec.ofNat 16 n, BitVec.ofNat 16 (k + 1), a ++ p⟩, .respond .incomplete [])
      else (.fresh, completeResponse crc (a ++ p)) := by
  have hk' : (BitVec.ofNat 16 k).toNat = k := by simp; omega
  have hn' : (BitVec.ofNat 16 n).toNat = n := by simp; omega
  obtain ⟨c, -⟩ | ⟨-, c, e⟩ | ⟨-, c, e⟩ :=
    Reassembler.take_cases crc cap ⟨.accum, BitVec.ofNat 16 n, BitVec.ofNat 16 k, a⟩ p
  · simp only at c; omega
  · simp only [hk', hn'] at c
    rw [e, if_pos c]
    have : BitVec.ofNat 16 k + 1 = BitVec.ofNat 16 (k + 1) := by
      apply BitVec.eq_of_toNat_eq; simp
    simp only [this]
  · simp only [hk', hn'] at c
    rw [e, if_neg (by omega)]

/-- What the segmenter writes into a chunk is what the reassembler reads from it, whatever pad follows (R85,
R86). -/
theorem makeChunk_fields (sub : Byte) {total index : Nat} {p : Bytes} (pad : Bytes)
    (ht : total < 65536) (hi : index < 65536) (hp : p.length < 65536) :
    chunkSub (makeChunk sub total index p ++ pad) = sub ∧
    chunkTotal (makeChunk sub total index p ++ pad) = total ∧
    chunkIndex (makeChunk sub total index p ++ pad) = index ∧
    chunkLen (makeChunk sub total index p ++ pad) = p.length ∧
    chunkPiece (makeChunk sub total index p ++ pad) = p := by
  have hl : chunkLen (makeChunk sub total index p ++ pad) = p.length := by
    simp [chunkLen, makeChunk, le16, put16, byteAt, bits]; omega
  refine ⟨by simp [chunkSub, makeChunk, byteAt], ?_, ?_, hl, ?_⟩
  · simp [chunkTotal, makeChunk, le16, put16, byteAt, bits]; omega
  · simp [chunkIndex, makeChunk, le16, put16, byteAt, bits]; omega
  · rw [chunkPiece, hl]; simp [slice, makeChunk, put16]

@[simp] theorem makeChunk_length (sub : Byte) (total index : Nat) (p : Bytes) :
    (makeChunk sub total index p).length = 7 + p.length := by
  simp [makeChunk]; omega

end Sys2Proof.Machine
end

