-- ==== Sys2Proof/Laws/Crc.lean ====
section
/-!
SUPPORT. How the CRC register moves: over a concatenation, and one-to-one for a fixed byte.
-/

namespace Sys2Proof.Machine

@[simp] theorem crcRun_nil (c : U32) : crcRun c [] = c := rfl
@[simp] theorem crcRun_cons (c : U32) (b : Byte) (x : Bytes) : crcRun c (b :: x) = crcRun (crcByte c b) x := rfl
theorem crcRun_append (c : U32) (x y : Bytes) : crcRun c (x ++ y) = crcRun (crcRun c x) y :=
  List.foldl_append

/-- Each bit of the register after one turn: the bit above it, with the polynomial where a 1 fell out. -/
theorem crcBit_getLsbD (c : U32) {i : Nat} (h : i < 32) :
    (crcBit c).getLsbD i = ((c.getLsbD (i + 1)) ^^ (c.getLsbD 0 && crcPoly.getLsbD i)) := by
  unfold crcBit
  split <;> simp_all [Nat.add_comm]

/-- One turn of the register is linear over XOR. -/
theorem crcBit_xor (c d : U32) : crcBit (c ^^^ d) = crcBit c ^^^ crcBit d := by
  apply BitVec.eq_of_getLsbD_eq
  intro i hi
  simp only [BitVec.getLsbD_xor, crcBit_getLsbD _ hi]
  cases c.getLsbD (i + 1) <;> cases d.getLsbD (i + 1) <;> cases c.getLsbD 0 <;> cases d.getLsbD 0 <;>
    cases crcPoly.getLsbD i <;> rfl

end Sys2Proof.Machine
end

