-- ==== Sys2Proof/Laws/Decode.lean ====
section
/-!
SUPPORT. What the decoder reads from a serialised request.
-/

namespace Sys2Proof

open Machine

theorem needsZeroArg_ok {q : Nat} {i j : Instr} :
    needsZeroArg q i = .ok j ↔ argField q = 0 ∧ i = j := by
  unfold needsZeroArg
  split
  · simp_all
  · simp_all

/-- A request with word q and operand x is decoded by its word (R94, R97). -/
theorem decode_request {q : Nat} {x : Bytes} (hq : q < 4294967296) (hx : x.length < 4294967296) :
    decode (put32 q ++ put32 x.length ++ x) = decodeWord q x := by
  have h0 : le32 (put32 q ++ put32 x.length ++ x) 0 = q := by
    rw [List.append_assoc]; exact le32_put32 _ hq
  have h4 : le32 (put32 q ++ put32 x.length ++ x) 4 = x.length := by
    rw [List.append_assoc, le32_append_right _ (by simp)]; exact le32_put32 _ hx
  have hd : (put32 q ++ put32 x.length ++ x).drop 8 = x := by
    rw [List.drop_append]; simp
  simp only [decode, h0, h4, hd]
  simp; omega

theorem requestWord_lt (i : Instr) : requestWord i < 65536 := by
  have := i.arg8.isLt
  cases i <;> simp_all [requestWord, Instr.op] <;> omega

end Sys2Proof
end

