-- ==== Sys2Proof/Laws/Duties.lean ====
section
/-!
SUPPORT. The host's view of the port is that of the machine; the fields of the view after each named update; what
keeping the duties says of each act.
-/

namespace Sys2Proof.Machine

/-- What the host's view computes of an operation is what exec does (R99). -/
theorem exec_answer (i : Instr) (s : State) :
    exec i s = .next ((s.setReasm (answer crc32 s.cap s.reasm i).1).respond (answer crc32 s.cap s.reasm i).2) := by
  cases i <;> rfl

@[simp] theorem HostView.abort_cap (v : HostView) : v.abort.cap = v.cap := rfl
@[simp] theorem HostView.abort_reasm (v : HostView) : v.abort.reasm = v.reasm := rfl
@[simp] theorem HostView.abort_used (v : HostView) : v.abort.used = v.used := rfl
@[simp] theorem HostView.abort_due (v : HostView) : v.abort.due = true := rfl
@[simp] theorem HostView.abort_checked (v : HostView) : v.abort.checked = [] := rfl

@[simp] theorem HostView.openSession_cap (v : HostView) : v.openSession.cap = v.cap := rfl
@[simp] theorem HostView.openSession_reasm (v : HostView) : v.openSession.reasm = v.reasm := rfl
@[simp] theorem HostView.openSession_used (v : HostView) : v.openSession.used = v.used := rfl
@[simp] theorem HostView.openSession_due (v : HostView) : v.openSession.due = (v.due || v.used) := rfl
@[simp] theorem HostView.openSession_checked (v : HostView) : v.openSession.checked = v.checked := rfl

@[simp] theorem HostView.resetBlock_cap (v : HostView) : v.resetBlock.cap = v.cap := rfl
@[simp] theorem HostView.resetBlock_reasm (v : HostView) : v.resetBlock.reasm = .fresh := rfl
@[simp] theorem HostView.resetBlock_used (v : HostView) : v.resetBlock.used = false := rfl
@[simp] theorem HostView.resetBlock_due (v : HostView) : v.resetBlock.due = false := rfl
@[simp] theorem HostView.resetBlock_checked (v : HostView) : v.resetBlock.checked = v.checked := rfl

/-- Everything a response can do to the view: an error aborts; else the host learns of it. -/
theorem HostView.answered_cases (crc : Config.CrcFn) (v : HostView) (i : Instr) :
    ((answer crc v.cap v.reasm i).2.status.isError = true ∧ v.answered crc i =
      { v with reasm := (answer crc v.cap v.reasm i).1, used := true }.abort) ∨
    ((answer crc v.cap v.reasm i).2.status.isError = false ∧ v.answered crc i =
      { v with reasm := (answer crc v.cap v.reasm i).1, used := true }.learn (answer crc v.cap v.reasm i).2 i) := by
  simp only [HostView.answered]
  split
  · exact .inl ⟨‹_›, rfl⟩
  · exact .inr ⟨Bool.eq_false_iff.mpr ‹_›, rfl⟩

/-- The duties are kept in two stretches of acts when they are kept in each. -/
theorem keepsHostDuties_append (crc : Config.CrcFn) (v : HostView) (p q : List HostAct) :
    keepsHostDuties crc v (p ++ q) =
      (keepsHostDuties crc v p && keepsHostDuties crc (p.foldl (HostView.after crc) v) q) := by
  induction p generalizing v with
  | nil => rfl
  | cons a p ih => simp [keepsHostDuties, ih, Bool.and_assoc]

/-- A REASM_CLEAR that is due stays due until it is issued or the block is reset (R266). -/
theorem HostView.after_due (crc : Config.CrcFn) {v : HostView} {a : HostAct} (h : v.due = true)
    (hc : a ≠ .issue (.reasmClear [])) (hr : a ≠ .reset) (hd : ∀ i, a ≠ .resetDuring i) :
    (v.after crc a).due = true := by
  cases a with
  | opens => simp [HostView.after, h]
  | aborts => rfl
  | reserved => rfl
  | reset => exact absurd rfl hr
  | resetDuring i => exact absurd rfl (hd i)
  | issue i =>
    obtain ⟨-, e⟩ | ⟨he, e⟩ := v.answered_cases crc i
    · simp [HostView.after, e]
    · rw [HostView.after, e]
      cases i with
      | reasmClear x =>
        cases x with
        | nil => exact absurd rfl hc
        | cons b x => simp [answer, Reassembler.clear, Status.isError] at he
      | crc32 _ => exact h
      | pktEncode _ _ => exact h
      | pktDecode _ => exact h
      | chunkEncode _ _ => exact h
      | chunkFeed _ => exact h

/-- A checked payload is one that was checked before, or one this act's PKT_DECODE returned (R274). -/
theorem HostView.mem_checked_after (crc : Config.CrcFn) {v : HostView} {a : HostAct} {p : Byte × Bytes}
    (h : p ∈ (v.after crc a).checked) :
    p ∈ v.checked ∨ ∃ f, a = .issue (.pktDecode f) ∧ pktDecodeResponse crc f = ⟨.ok, p.1, [p.2]⟩ := by
  cases a with
  | opens => exact .inl h
  | aborts => simp [HostView.after] at h
  | reserved => simp [HostView.after] at h
  | reset => exact .inl h
  | resetDuring _ => exact .inl h
  | issue i =>
    obtain ⟨-, e⟩ | ⟨he, e⟩ := v.answered_cases crc i
    · simp [HostView.after, e] at h
    · rw [HostView.after, e] at h
      cases i with
      | pktDecode f =>
        simp only [HostView.learn, answer, List.mem_append, List.mem_map] at h he
        refine h.symm.imp_right fun ⟨x, hx, hp⟩ => ⟨f, rfl, ?_⟩
        subst hp
        revert hx
        unfold pktDecodeResponse
        split
        · simp
        · split
          · simp
          · intro hx
            simp only [List.mem_singleton] at hx
            simp [hx]
      | crc32 _ => exact .inl h
      | pktEncode _ _ => exact .inl h
      | chunkEncode _ _ => exact .inl h
      | chunkFeed _ => exact .inl h
      | reasmClear _ => exact .inl h

end Sys2Proof.Machine
end

