-- ==== Sys2Proof/Laws/PerInstr.lean ====
section
/-!
SUPPORT. What holds of every operation as syntax, one lemma per constructor: how long its serialised request is.
-/

namespace Sys2Proof.Laws.RequestLength

/-- A serialised request is eight bytes longer than its operand (R94). -/
def Statement (i : Instr) : Prop := (encode i).length = 8 + i.operand.length

theorem crc32 (x : Bytes) : Statement (.crc32 x) := by
  simp [Statement, encode, Machine.put32]; omega

theorem pktEncode (cmd : Byte) (x : Bytes) : Statement (.pktEncode cmd x) := by
  simp [Statement, encode, Machine.put32]; omega

theorem pktDecode (x : Bytes) : Statement (.pktDecode x) := by
  simp [Statement, encode, Machine.put32]; omega

theorem chunkEncode (sub : Byte) (x : Bytes) : Statement (.chunkEncode sub x) := by
  simp [Statement, encode, Machine.put32]; omega

theorem chunkFeed (x : Bytes) : Statement (.chunkFeed x) := by
  simp [Statement, encode, Machine.put32]; omega

theorem reasmClear (x : Bytes) : Statement (.reasmClear x) := by
  simp [Statement, encode, Machine.put32]; omega

end Sys2Proof.Laws.RequestLength
end

