-- ==== Sys2Proof/Laws/Step.lean ====
section
/-!
SUPPORT. Everything an operation and a step can do, one case list each.
-/

namespace Sys2Proof.Machine

/-- Every operation writes at most the reassembler and gives one response (R66, R99). -/
theorem exec_next (i : Instr) (s : State) :
    ∃ m r, exec i s = .next ((s.setReasm m).respond r) := by
  cases i
  · exact ⟨s.reasm, _, rfl⟩
  · exact ⟨s.reasm, _, rfl⟩
  · exact ⟨s.reasm, _, rfl⟩
  · exact ⟨s.reasm, _, rfl⟩
  · exact ⟨_, _, rfl⟩
  · exact ⟨_, _, rfl⟩

/-- A run of one step more begins with that step. -/
theorem run_succ (M : Host.Core) {s t : M.State} {n : Nat} (h : M.step s = .next t) :
    M.run (n + 1) s = M.run n t := by
  simp only [Host.Core.run, h]

/-- The same of this machine. -/
theorem core_run_succ {s t : State} {n : Nat} (h : step s = .next t) :
    Host.Core.run core (n + 1) s = Host.Core.run core n t :=
  run_succ core h

/-- Everything a step that answers a next state can have done (R70, R97, R261). -/
theorem step_cases {s t : State} (h : step s = .next t) :
    (s.script = [] ∧ t = s) ∨
    (∃ bs rest i, s.script = .request bs :: rest ∧ decode bs = .ok i ∧ exec i (s.setScript rest) = .next t) ∨
    (∃ bs rest e, s.script = .request bs :: rest ∧ decode bs = .error e ∧
      (e = .reservedBits ∨ e = .reservedOp ∨ e = .reservedArg) ∧ t = (s.setScript rest).raise .errBadop) ∨
    (∃ ev rest, s.script = ev :: rest ∧ (ev = .reset ∨ ∃ bs, ev = .resetDuring bs) ∧
      t = (s.setScript rest).platformReset) := by
  unfold step fetch at h
  split at h
  all_goals rename_i hf
  · split at hf
    · left; exact ⟨‹_›, by cases h; rfl⟩
    · unfold fetchRequest at hf; split at hf <;> cases hf
    · cases hf
    · cases hf
    · cases hf
  · split at hf
    · cases hf
    · rename_i bs rest hs
      right; left
      unfold fetchRequest at hf
      split at hf <;> cases hf
      exact ⟨bs, rest, _, hs, ‹_›, h⟩
    · cases hf
    · cases hf
    · cases hf
  · split at hf
    · cases hf
    · rename_i bs rest hs
      right; right; left
      unfold fetchRequest at hf
      split at hf <;> cases hf <;> cases h
      · exact ⟨bs, rest, _, hs, ‹_›, .inl rfl, rfl⟩
      · exact ⟨bs, rest, _, hs, ‹_›, .inr (.inl rfl), rfl⟩
      · exact ⟨bs, rest, _, hs, ‹_›, .inr (.inr rfl), rfl⟩
    · cases hf; cases h
      exact .inr (.inr (.inr ⟨_, _, ‹_›, .inl rfl, rfl⟩))
    · cases hf; cases h
      exact .inr (.inr (.inr ⟨_, _, ‹_›, .inr ⟨_, rfl⟩, rfl⟩))
    · cases hf
  · cases h
  · cases h

end Sys2Proof.Machine
end

