-- ==== Sys2Proof/Tests/Slice0.lean ====
section
/-!
SUPPORT. Tests against the vectors of 95_test_vectors.md and the encodings of 30_encoding.md, and for each statement
with hypotheses a state and operands that meet them.
-/

namespace Sys2Proof.Tests

open Sys2Proof Sys2Proof.Machine Sys2Proof.Claims

/-- A machine in IDLE with a buffer of `cap` bytes. -/
def idle (cap : Nat) : State := { reasm := .fresh, cap := cap, script := [], responses := [] }

/-- A machine with one of three pieces taken, two bytes accumulated. -/
def midway : State := { idle 300 with reasm := ⟨.accum, 3, 1, [0x01, 0x02]⟩ }

/-- The same with these bytes at the port. -/
def offered (s : State) (bs : Bytes) : State := s.setScript [.request bs]

/-- The reassembler and the responses after a step that answers a next state. -/
def after : Host.Outcome State Fault Refusal → Option (Reassembler × List Response)
  | .next t => some (t.reasm, t.responses)
  | .fault _ => none
  | .refused _ => none

/-- The chunk of vector E-2: ascii "123456789" in one piece. -/
def k9 : Bytes :=
  [0x02, 0x01, 0x00, 0x00, 0x00, 0x0d, 0x00, 0x31, 0x32, 0x33, 0x34, 0x35, 0x36, 0x37, 0x38, 0x39,
   0x26, 0x39, 0xf4, 0xcb]

/-- ascii "123456789". -/
def nine : Bytes := [0x31, 0x32, 0x33, 0x34, 0x35, 0x36, 0x37, 0x38, 0x39]

/-- A chunk of a three-piece transfer with piece bytes aa bb (R85). -/
def c3 : Bytes := [0x02, 0x03, 0x00, 0x00, 0x00, 0x02, 0x00, 0xaa, 0xbb]

/-- The frame of vector P-1. -/
def p1 : Bytes := [0x01] ++ zeros 251 ++ [0x92, 0xa1, 0x9a, 0xa5]

/-! ### Well-formedness -/

theorem test_wellFormed_empty : (Instr.reasmClear []).WellFormed := by decide

/-- An operand of 2^32 bytes does not fit the operand length field (R94). -/
theorem test_illFormed_operand : ¬ (Instr.crc32 (List.replicate 4294967296 0)).WellFormed := by
  simp only [Instr.WellFormed, Instr.operand, List.length_replicate, Nat.lt_irrefl, not_false_eq_true]

/-! ### Decoding: words written from R94 and R96 -/

theorem test_word_crc32 : decodeTableWord 32 0x00000001 = some (.crc32 []) := by decide
theorem test_word_pktEncode : decodeTableWord 32 0x00000902 = some (.pktEncode 0x09 []) := by decide
theorem test_word_pktDecode : decodeTableWord 32 0x00000003 = some (.pktDecode []) := by decide
theorem test_word_chunkEncode : decodeTableWord 32 0x0000ff04 = some (.chunkEncode 0xff []) := by decide
theorem test_word_chunkFeed : decodeTableWord 32 0x00000005 = some (.chunkFeed []) := by decide
theorem test_word_reasmClear : decodeTableWord 32 0x00000006 = some (.reasmClear []) := by decide

/-- Program 1, line 1: PKT_ENCODE cmd=9, h"01 02 03", Q = 0x00000902, L = 3. -/
theorem test_decode_pktEncode :
    decode [0x02, 0x09, 0x00, 0x00, 0x03, 0x00, 0x00, 0x00, 0x01, 0x02, 0x03] =
      .ok (.pktEncode 0x09 [0x01, 0x02, 0x03]) := by decide

/-- The same request as the encoder writes it. -/
theorem test_encode_pktEncode : encode (.pktEncode 0x09 [0x01, 0x02, 0x03]) =
    [0x02, 0x09, 0x00, 0x00, 0x03, 0x00, 0x00, 0x00, 0x01, 0x02, 0x03] := by decide

/-- Z-4: op 0x07 is reserved. -/
theorem test_decode_reservedOp : decode [0x07, 0, 0, 0, 0, 0, 0, 0] = .error .reservedOp := by decide
/-- Op 0x00 is reserved (R98). -/
theorem test_decode_op0 : decode [0, 0, 0, 0, 0, 0, 0, 0] = .error .reservedOp := by decide
/-- E-10: request word 0x00010004. -/
theorem test_decode_reservedBits : decode [0x04, 0, 0x01, 0, 0, 0, 0, 0] = .error .reservedBits := by decide
/-- P-16: request word 0x00000103. -/
theorem test_decode_reservedArg : decode [0x03, 0x01, 0, 0, 0, 0, 0, 0] = .error .reservedArg := by decide
/-- Seven bytes are no request (R94). -/
theorem test_decode_short : decode [0x06, 0, 0, 0, 0, 0, 0] = .error .short := by decide
/-- L = 2 with one operand byte is no request (R94). -/
theorem test_decode_length : decode [0x05, 0, 0, 0, 0x02, 0, 0, 0, 0xaa] = .error .lengthMismatch := by decide

/-! ### One step on each operation -/

/-- Section 2: the CRC of ascii "123456789". -/
theorem test_crc32_check : after (exec (.crc32 nine) (idle 0)) =
    some (.fresh, [⟨.ok, 0, [[0x26, 0x39, 0xf4, 0xcb]]⟩]) := by decide +kernel
/-- Section 2: the CRC of four bytes 0x00 is not 0. -/
theorem test_crc32_zeros : crc32 [0, 0, 0, 0] = 0x2144DF1C#32 := by decide +kernel

/-- P-1, with the CRC value the vector gives: id, pad, CRC little-endian. -/
theorem test_pktEncode_empty :
    pktEncodeResponse (fun _ => 0xA59AA192#32) 0x01 [] = ⟨.ok, 0, [p1]⟩ := by decide +kernel
/-- P-7. -/
theorem test_pktEncode_long : after (exec (.pktEncode 0x01 (zeros 252)) (idle 0)) =
    some (.fresh, [⟨.errLength, 0, []⟩]) := by decide +kernel

/-- P-8, with the CRC value of P-1. -/
theorem test_pktDecode_intact :
    pktDecodeResponse (fun _ => 0xA59AA192#32) p1 = ⟨.ok, 0x01, [zeros 251]⟩ := by decide +kernel
/-- P-12: the CRC stored big-endian. -/
theorem test_pktDecode_bigEndian :
    pktDecodeResponse (fun _ => 0xA59AA192#32) ([0x01] ++ zeros 251 ++ [0xa5, 0x9a, 0xa1, 0x92]) =
      ⟨.errIntegrity, 0, []⟩ := by decide +kernel

/-- E-2. -/
theorem test_chunkEncode_nine : after (exec (.chunkEncode 0x02 nine) (idle 0)) =
    some (.fresh, [⟨.ok, 0, [k9]⟩]) := by decide +kernel
/-- E-4, with its CRC 0x2BBB578F: the CRC is split between the two pieces. -/
theorem test_chunkEncode_split : chunkEncodeResponse (fun _ => 0x2BBB578F#32) 0x02 (zeros 237) =
    ⟨.ok, 0, [[0x02, 0x02, 0, 0, 0, 0xf0, 0] ++ zeros 237 ++ [0x8f, 0x57, 0xbb],
      [0x02, 0x02, 0, 0x01, 0, 0x01, 0, 0x2b]]⟩ := by decide +kernel

/-- F-3. -/
theorem test_chunkFeed_nine : after (exec (.chunkFeed k9) (idle 300)) =
    some (.fresh, [⟨.ok, 0, [nine]⟩]) := by decide +kernel
/-- F-17, second feed: 240 bytes taken of 300, and a piece of 240 more. -/
theorem test_chunkFeed_overflow :
    after (exec (.chunkFeed ([0x02, 0x03, 0, 0x01, 0, 0xf0, 0] ++ zeros 240))
      { idle 300 with reasm := ⟨.accum, 3, 1, zeros 240⟩ }) =
      some (.fresh, [⟨.errOverflow, 0, []⟩]) := by decide +kernel

/-- Z-2, second request. -/
theorem test_reasmClear_accum : after (exec (.reasmClear []) midway) =
    some (.fresh, [⟨.ok, 0, []⟩]) := by decide
/-- Z-3: with L = 1 nothing changes. -/
theorem test_reasmClear_operand : after (exec (.reasmClear [0x00]) midway) =
    some (⟨.accum, 3, 1, [0x01, 0x02]⟩, [⟨.errLength, 0, []⟩]) := by decide

/-! ### The port -/

/-- F-20: a CHUNK_FEED with arg8 = 1 is ERR_BADOP and leaves the accumulation. -/
theorem test_step_badop : after (step (offered midway (put32 0x00000105 ++ put32 9 ++ c3))) =
    some (⟨.accum, 3, 1, [0x01, 0x02]⟩, [⟨.errBadop, 0, []⟩]) := by decide +kernel

/-- From reset, a request placed at the port is the first thing run. -/
theorem test_step_withFetchWord : after (step (State.reset.withFetchWord 32 0x00000006)) =
    some (.fresh, [⟨.ok, 0, []⟩]) := by decide

/-- R99, R100: the response of REASM_CLEAR with an operand, serialised. -/
theorem test_response_bytes : (Response.mk .errLength 0 []).toBytes = [0x02, 0x00, 0x00, 0x00] := by decide
/-- R99: one output of two bytes. -/
theorem test_response_outs : (Response.mk .ok 0x09 [[0xaa, 0xbb]]).toBytes =
    [0x00, 0x09, 0x01, 0x00, 0x02, 0x00, 0x00, 0x00, 0xaa, 0xbb] := by decide

/-- R101: a line's bytes expression, with an output of the first operation. -/
theorem test_line_assemble : Line.assemble [⟨.ok, 0, [[0x31, 0x32]]⟩]
    (.chunkFeed (.append (.xorAt (.out 1 0) 1 0x01) (.ascii ['a']))) =
      some (.chunkFeed [0x31, 0x33, 0x61]) := by decide

/-- R101 gives ASCII codes only: é (U+00E9) has none, so its line is not assembled (log 13). -/
theorem test_line_notAscii : Line.assemble [] (.crc32 (.ascii ['a', 'é'])) = none := by decide

/-- A line of 2^32 bytes, one more than the field L can say, is not assembled (R15, R94, log 13). -/
theorem test_line_tooLong : Line.assemble [] (.crc32 (.zeros 4294967296)) = none :=
  Line.assemble_eq_none_of_long (i := .crc32 (List.replicate 4294967296 0)) rfl test_illFormed_operand

/-- `$1` is the program's own first operation, on a machine that has given a response before: the CRC of
ascii"123456789" is the operand PKT_DECODE turns away. -/
theorem test_line_ownProgram :
    (match runLines [.crc32 (.hex nine), .pktDecode (.out 1 0)] ((idle 0).respond (.respond .incomplete [])) with
      | .next t => t.responses
      | _ => []) =
      [⟨.incomplete, 0, []⟩, ⟨.ok, 0, [[0x26, 0x39, 0xf4, 0xcb]]⟩, ⟨.errLength, 0, []⟩] := by decide +kernel

/-! ### Witnesses: states and operands that meet the hypotheses of each statement -/

theorem witness_decodeOfEncode : (Instr.pktEncode 0xff [0x00]).WellFormed := by decide
theorem witness_decodedBytes : decode [0x05, 0, 0, 0, 0x01, 0, 0, 0, 0xaa] = .ok (.chunkFeed [0xaa]) := by decide

/-- An illegal word of each kind (R98), and a legal one, as the serialised request at the port. -/
theorem witness_requestWords : (0xffffffff : Nat) < 2 ^ 32 ∧ (c3.length < 2 ^ 32) ∧
    (offered midway (requestBytes 0x00010004 c3)).script = .request (requestBytes 0x00010004 c3) :: [] ∧
    IllegalWord 0x00010004 ∧ IllegalWord 0x00000000 ∧ IllegalWord 0x00000007 ∧ IllegalWord 0x000000ff ∧
    IllegalWord 0x00000106 ∧ ¬ IllegalWord 0x00000001 ∧ ¬ IllegalWord 0x00000006 ∧ ¬ IllegalWord 0x0000ff02 := by
  refine ⟨by decide, by decide, rfl, by decide, by decide, by decide, by decide, by decide, by decide, by decide, ?_⟩
  decide

theorem witness_stepRuns : (offered midway (encode (.chunkFeed c3))).script =
      .request (encode (.chunkFeed c3)) :: [] ∧ decode (encode (.chunkFeed c3)) = .ok (.chunkFeed c3) := by decide

/-- A request of each kind that the clauses of the response statement name. -/
theorem witness_oneResponse : IsRequest (encode (.reasmClear [])) ∧ IsRequest (requestBytes 0x00000000 []) ∧
    decode (encode (.reasmClear [])) = .ok (.reasmClear []) ∧
    decode (encode (.pktDecode [])) = .ok (.pktDecode []) ∧
    pktDecodeResponse (fun _ => 0xA59AA192#32) p1 = ⟨.ok, 0x01, [zeros 251]⟩ := by decide +kernel

theorem witness_responseBytes : Sendable ⟨.ok, 0x09, [[0xaa], []]⟩ ∧ Sendable ⟨.ok, 0x09, [[0xaa], []]⟩ := by
  simp [Sendable]

/-- States of both phases that meet the invariant, at its bounds. -/
theorem witness_invariant : (idle 0).Inv ∧ midway.Inv ∧
    State.Inv { idle 244 with reasm := ⟨.accum, 0xffff, 1, zeros 244⟩ } := by decide +kernel

theorem witness_platformReset : (midway.setScript [.reset]).script = .reset :: [] ∧
    (midway.setScript [.resetDuring c3]).script = .resetDuring c3 :: [] ∧
    (midway.setScript [.overlap c3 c3]).script = .overlap c3 c3 :: [] ∧ (idle 0).script = [] := by decide

theorem witness_orderly : State.Orderly (midway.setScript [.reset, .request (encode (.chunkFeed c3)),
    .request (requestBytes 0x00000007 []), .resetDuring []]) := by decide

/-- A step that changes the reassembler, for the statements about any step. -/
theorem witness_step : after (step (offered midway (encode (.reasmClear [])))) =
    some (.fresh, [⟨.ok, 0, []⟩]) := by decide

theorem witness_singleBit : 7 < 8 * ([0x61] : Bytes).length := by decide

theorem witness_burst : ([0x61] : Bytes).length = ([0x60] : Bytes).length ∧ ([0x61] : Bytes) ≠ [0x60] ∧
    ∀ k, bitAt [0x61] k ≠ bitAt [0x60] k → 0 ≤ k ∧ k < 0 + 32 := by
  refine ⟨rfl, by decide, fun k h => ⟨Nat.zero_le k, ?_⟩⟩
  by_contra hk
  have h1 : 1 ≤ k / 8 := by omega
  obtain ⟨j, hj⟩ : ∃ j, k / 8 = j + 1 := ⟨k / 8 - 1, by omega⟩
  exact h (by simp [bitAt, byteAt, hj])

/-- The last offset where 33 bits fit in five bytes, with the generator's pattern and two that are not it. -/
theorem witness_generatorPattern : 7 + 33 ≤ 8 * ([0, 0, 0, 0, 0] : Bytes).length ∧
    generatorPattern < 2 ^ 33 ∧ (0 : Nat) < 2 ^ 33 ∧ generatorPattern ≠ 2 ^ 33 - 1 ∧ (2 ^ 33 - 1 : Nat) < 2 ^ 33 := by
  decide

theorem witness_crc32Word : (0x00000101 : Nat) < 2 ^ 32 ∧ nine.length < 2 ^ 32 ∧
    (offered midway (requestBytes 0x00000101 nine)).script = .request (requestBytes 0x00000101 nine) :: [] ∧
    bits 0x00000101 7 0 = 0x01 ∧ bits 0x00000101 15 8 ≠ 0 ∧ bits 0x00010001 7 0 = 0x01 ∧
    bits 0x00010001 31 16 ≠ 0 ∧ bits 0x00000001 7 0 = 0x01 ∧ bits 0x00000001 15 8 = 0 ∧
    bits 0x00000001 31 16 = 0 := by decide

/-- The longest payload PKT_ENCODE takes, and the shortest it turns away. -/
theorem witness_pktEncode : (zeros 251).length ≤ 251 ∧ 251 < (zeros 252).length := by decide +kernel

theorem witness_frameLayout : (zeros 251).length ≤ 251 ∧
    pktEncodeResponse crc32 0xff (zeros 251) = ⟨.ok, 0, [makeFrame crc32 0xff (zeros 251)]⟩ := by
  refine ⟨by decide +kernel, ?_⟩
  have h : ¬ Config.payloadLen < (zeros 251).length := by simp
  rw [pktEncodeResponse, if_neg h]; rfl

/-- The chunk of vector E-1, of the empty buffer. -/
def e1 : Bytes := [0x07, 0x01, 0, 0, 0, 0x04, 0, 0, 0, 0, 0]

/-- The 252 bytes of the frame of e1 that its CRC covers. -/
def e1Span : Bytes := [0x03] ++ e1 ++ zeros (251 - 11)

/-- The frame of e1 with the CRC field given. -/
def e1Frame (v : U32) : Bytes := e1Span ++ put32 v.toNat

theorem e1Frame_fields (v : U32) : (e1Frame v).length = 256 ∧ le32 (e1Frame v) 252 = v.toNat ∧
    slice (e1Frame v) 0 252 = e1Span := by
  have hl : e1Span.length = 252 := by simp [e1Span, e1]
  refine ⟨by simp [e1Frame, hl], ?_, ?_⟩
  · rw [e1Frame, le32_append_right _ (by omega), hl]
    simpa using le32_put32 [] v.isLt
  · rw [e1Frame, slice_append_left _ (by omega), slice_zero, List.take_of_length_le (by omega)]

/-- An intact frame, made with the block's own CRC. -/
theorem witness_intact : (e1Frame (crc32 e1Span)).length = 256 ∧
    le32 (e1Frame (crc32 e1Span)) 252 = (crc32 (slice (e1Frame (crc32 e1Span)) 0 252)).toNat := by
  obtain ⟨h1, h2, h3⟩ := e1Frame_fields (crc32 e1Span)
  exact ⟨h1, by rw [h2, h3]⟩

/-- The same frame with one bit of its CRC field flipped, which is not intact. -/
theorem witness_notIntact : (e1Frame (crc32 e1Span ^^^ 1)).length = 256 ∧
    le32 (e1Frame (crc32 e1Span ^^^ 1)) 252 ≠ (crc32 (slice (e1Frame (crc32 e1Span ^^^ 1)) 0 252)).toNat := by
  obtain ⟨h1, h2, h3⟩ := e1Frame_fields (crc32 e1Span ^^^ 1)
  refine ⟨h1, fun h => ?_⟩
  rw [h2, h3] at h
  have hb := congrArg (BitVec.getLsbD · 0) (BitVec.eq_of_toNat_eq h : crc32 e1Span ^^^ 1 = crc32 e1Span)
  simp at hb

/-- Operands of lengths 255 and 257 (P-14, R149), beside the two frames above. -/
theorem witness_pktDecode : (zeros 255).length ≠ 256 ∧ (zeros 257).length ≠ 256 := by decide +kernel

theorem witness_bitFlip : (zeros 251).length ≤ 251 ∧ (2047 : Nat) < 2048 := by decide +kernel
theorem witness_trailingZeros : ([0x01] : Bytes).length + 250 ≤ 251 := by decide
theorem witness_stateless : Stateless (.crc32 nine) ∧ Stateless (.pktEncode 0x01 []) ∧
    Stateless (.pktDecode []) ∧ Stateless (.chunkEncode 0x02 []) := ⟨trivial, trivial, trivial, trivial⟩

/-- The longest buffer the segmenter takes and its count, the shortest it turns away, and an empty one. -/
theorem witness_chunkEncode :
    (List.replicate 15728396 (0x00 : Byte)).length ≤ 15728396 ∧
    15728396 < (List.replicate 15728397 (0x00 : Byte)).length ∧
    240 * 65535 < 15728396 + 4 + 240 ∧ 15728396 + 4 ≤ 240 * 65535 ∧
    240 * 1 < 0 + 4 + 240 ∧ 0 + 4 ≤ 240 * 1 := by
  simp only [List.length_replicate]; omega

/-- The two chunks of vector E-4's shape: a first and a last piece. -/
theorem witness_chunkAt : (zeros 237).length ≤ 15728396 ∧ ∃ a b,
    chunkEncodeResponse (fun _ => 0x2BBB578F#32) 0x02 (zeros 237) = ⟨.ok, 0, [a, b]⟩ :=
  ⟨by decide +kernel, _, _, test_chunkEncode_split⟩

/-- A first chunk of three in IDLE, the buffer exactly full after it. -/
theorem witness_firstChunk : (idle 2).reasm.phase = .idle ∧ c3.length ≤ 251 ∧ 7 ≤ c3.length ∧
    7 + le16 c3 5 ≤ c3.length ∧ 2 ≤ le16 c3 1 ∧ le16 c3 5 ≤ (idle 2).cap := by decide

/-- A piece that is not the last, in each phase. -/
theorem witness_beforeLast : Taken 2 (idle 2).reasm c3 ∧
    countBefore (idle 2).reasm + 1 < expectedOf (idle 2).reasm c3 ∧ Taken midway.cap midway.reasm c3 ∧
    countBefore midway.reasm + 1 < expectedOf midway.reasm c3 := by decide

/-- A last piece that is intact (F-3), one that is not (F-5), and one of fewer than four bytes (F-8). -/
theorem witness_lastChunk : Taken 13 (idle 13).reasm k9 ∧
    countBefore (idle 13).reasm + 1 = expectedOf (idle 13).reasm k9 ∧ EndsInCrc (accAfter (idle 13).reasm k9) ∧
    Taken 13 (idle 13).reasm (xorByte k9 7 0x01) ∧
    countBefore (idle 13).reasm + 1 = expectedOf (idle 13).reasm (xorByte k9 7 0x01) ∧
    ¬ EndsInCrc (accAfter (idle 13).reasm (xorByte k9 7 0x01)) ∧
    Taken 2 (idle 2).reasm [0x02, 0x01, 0, 0, 0, 0x02, 0, 0xaa, 0xbb] ∧
    ¬ EndsInCrc (accAfter (idle 2).reasm [0x02, 0x01, 0, 0, 0, 0x02, 0, 0xaa, 0xbb]) := by decide +kernel

/-- A piece one byte too long for the buffer, in each phase. -/
theorem witness_overflow : Accepts (idle 1).reasm c3 ∧ (1 < (accBefore (idle 1).reasm).length + le16 c3 5) ∧
    Accepts midway.reasm c3 ∧ (3 < (accBefore midway.reasm).length + le16 c3 5) := by decide

theorem witness_largeBuffer : State.Inv { midway with cap := 15990540 } ∧ (15990540 : Nat) ≤ 15990540 := by decide

theorem witness_badopFeed : IllegalWord 0x00000105 ∧ c3.length < 2 ^ 32 ∧
    (offered midway (requestBytes 0x00000105 c3)).script = .request (requestBytes 0x00000105 c3) :: [] := by decide

/-- Two chunks that differ in every field the reassembler ignores, in each phase (R181). -/
theorem witness_ignored :
    le16 c3 5 = le16 [0x01, 0x03, 0, 0x07, 0, 0x02, 0, 0xaa, 0xbb, 0xcc] 5 ∧
    slice c3 7 (le16 c3 5) = slice [0x01, 0x03, 0, 0x07, 0, 0x02, 0, 0xaa, 0xbb, 0xcc] 7 2 ∧
    le16 c3 1 = le16 [0x01, 0x03, 0, 0x07, 0, 0x02, 0, 0xaa, 0xbb, 0xcc] 1 ∧
    slice c3 7 (le16 c3 5) = slice [0x01, 0x00, 0, 0x07, 0, 0x02, 0, 0xaa, 0xbb, 0xcc] 7 2 ∧
    midway.reasm.phase = .accum ∧ (idle 2).reasm.phase = .idle := by decide

theorem witness_repeated : (idle 4).reasm.phase = .idle ∧ c3.length ≤ 251 ∧ 7 ≤ c3.length ∧
    7 + le16 c3 5 ≤ c3.length ∧ 3 ≤ le16 c3 1 ∧ 2 * le16 c3 5 ≤ (idle 4).cap := by decide

/-- Two of three chunks, and three of three. -/
theorem witness_arrivalOrder : (idle 6).reasm.phase = .idle ∧
    (∀ x ∈ [c3, c3, c3], x.length ≤ 251 ∧ 7 ≤ x.length ∧ 7 + le16 x 5 ≤ x.length) ∧
    (([c3, c3, c3].map fun x => slice x 7 (le16 x 5)).flatten).length ≤ 6 ∧
    [c3, c3].length < le16 c3 1 ∧ [c3, c3, c3].length = le16 c3 1 := by decide

theorem witness_clear : ([] : Bytes).length = 0 ∧ ([0x00] : Bytes).length ≠ 0 := by decide

/-- One-chunk transfer of the empty buffer (E-1), fed as it is. -/
theorem witness_roundTrip : ([] : Bytes).length ≤ 15728396 ∧ ([] : Bytes).length + 4 ≤ (idle 4).cap ∧
    (idle 4).reasm.phase = .idle ∧
    chunkEncodeResponse crc32 0x07 [] = ⟨.ok, 0, [e1]⟩ ∧
    ((idle 4).setScript ([e1].map fun x => HostEvent.request (encode (.chunkFeed x)))).script =
      ([e1].map fun x => HostEvent.request (encode (.chunkFeed x))) ++ [] := by
  decide +kernel

/-- The same chunk carried in a frame: what the second form of a fed payload asks for. -/
theorem witness_roundTrip_framed : ∃ f x, pktEncodeResponse crc32 0x03 e1 = ⟨.ok, 0, [f]⟩ ∧
    pktDecodeResponse crc32 f = ⟨.ok, 0x03, [x]⟩ := by
  refine ⟨e1Frame (crc32 e1Span), framePayload (e1Frame (crc32 e1Span)), rfl, ?_⟩
  obtain ⟨h1, h2⟩ := witness_intact
  have hi : Intact crc32 (e1Frame (crc32 e1Span)) := h2
  rw [pktDecodeResponse, if_neg (by simp [h1]), if_neg (not_not.mpr hi)]; rfl

theorem witness_sendChunked : nine.length ≤ 15728396 := by decide

/-- An intact frame, and an operand RECV_PIECE turns away. -/
theorem witness_recvPiece : (e1Frame (crc32 e1Span)).length < 2 ^ 32 ∧
    (e1Frame (crc32 e1Span)).length = 256 ∧ nine.length < 2 ^ 32 ∧ nine.length ≠ 256 := by
  have h := witness_intact.1
  exact ⟨by omega, h, by decide, by decide⟩

/-- A CRC function for tests of the duties, under which every frame that ends in four zero bytes is intact. -/
abbrev zeroCrc : Config.CrcFn := fun _ => 0

/-- The payload of a one-chunk transfer with this sub-command of an empty buffer, whose CRC under `zeroCrc` is
`crc`. -/
abbrev onePiece (sub crc : Byte) : Bytes := [sub, 1, 0, 0, 0, 4, 0, crc, 0, 0, 0] ++ zeros 240

/-- PKT_DECODE of that payload in a frame of this command, then CHUNK_FEED of it. -/
abbrev receiveOne (cmd sub crc : Byte) : List HostAct :=
  [.issue (.pktDecode ([cmd] ++ onePiece sub crc ++ zeros 4)), .issue (.chunkFeed (onePiece sub crc))]

/-- R266: no REASM_CLEAR is due after reset; one is due at a later session's start. -/
theorem test_duty_sessionStart :
    KeepsHostDuties zeroCrc (.afterReset 4) (.opens :: receiveOne 3 2 0) ∧
    ¬ KeepsHostDuties zeroCrc (.afterReset 4) (receiveOne 3 2 0 ++ .opens :: receiveOne 3 2 0) ∧
    KeepsHostDuties zeroCrc (.afterReset 4)
      (receiveOne 3 2 0 ++ [.opens, .issue (.reasmClear [])] ++ receiveOne 3 2 0) := by decide +kernel

/-- R273: a payload of the power command (9) and a payload with sub-command 1 are not fed. -/
theorem test_duty_onlyConfigPieces :
    ¬ KeepsHostDuties zeroCrc (.afterReset 4) (receiveOne 9 2 0) ∧
    ¬ KeepsHostDuties zeroCrc (.afterReset 4) (receiveOne 3 1 0) := by decide +kernel

/-- R266 and R274: after a chunk-layer ERR_INTEGRITY a REASM_CLEAR or a reset is due before the next CHUNK_FEED. -/
theorem test_duty_chunkIntegrity :
    KeepsHostDuties zeroCrc (.afterReset 4) (receiveOne 3 2 1) ∧
    ¬ KeepsHostDuties zeroCrc (.afterReset 4) (receiveOne 3 2 1 ++ receiveOne 3 2 0) ∧
    KeepsHostDuties zeroCrc (.afterReset 4)
      (receiveOne 3 2 1 ++ [.issue (.reasmClear [])] ++ receiveOne 3 2 0) ∧
    KeepsHostDuties zeroCrc (.afterReset 4) (receiveOne 3 2 1 ++ [.reset] ++ receiveOne 3 2 0) := by decide +kernel

/-- R274: a payload that no PKT_DECODE returned is not fed. -/
theorem test_duty_unchecked :
    ¬ KeepsHostDuties zeroCrc (.afterReset 4) [.issue (.chunkFeed (onePiece 2 0))] := by decide +kernel

theorem witness_receivingTransfer : ([] : Bytes).length ≤ 15728396 ∧
    ([] : Bytes).length + 4 ≤ (HostView.afterReset 4).cap ∧ (HostView.afterReset 4).checked = [] ∧
    ([.reset, .opens] : List HostAct) ∈
      [[.issue (.reasmClear [])], [.opens, .issue (.reasmClear [])], [.reset], [.reset, .opens]] ∧
    ((3 : Byte) = 3 ∧ (2 : Byte) = 2) ∧ ¬ ((9 : Byte) = 3 ∧ (2 : Byte) = 2) := by decide +kernel

/-- Each way a REASM_CLEAR comes to be due, and acts that are neither it nor a reset. -/
theorem witness_feedNeedsClear :
    { HostView.afterReset 4 with used := true }.used = true ∧
    (answer zeroCrc (HostView.afterReset 4).cap (HostView.afterReset 4).reasm
      (.chunkFeed (onePiece 2 1))).2.status.isError = true ∧
    ∀ b ∈ receiveOne 3 2 0, b ≠ .issue (.reasmClear []) ∧ b ≠ .reset ∧ ∀ i, b ≠ .resetDuring i := by
  refine ⟨rfl, by decide +kernel, ?_⟩
  simp

theorem witness_fedPayload : (HostView.afterReset 4).checked = [] ∧
    KeepsHostDuties zeroCrc (.afterReset 4)
      ([.issue (.pktDecode ([3] ++ onePiece 2 0 ++ zeros 4))] ++ [.issue (.chunkFeed (onePiece 2 0))] ++ []) := by
  decide +kernel

end Sys2Proof.Tests
end

section
/-!
The steps of the machine read forwards (what each event of the script does), what an operation leaves unchanged, and the
statements of 10_state.md about the reset state, the reassembler's writers and the kept responses.
-/

namespace Sys2Proof.Machine

/-! ### What a step does with each event -/

theorem step_of_script_nil {s : State} (hs : s.script = []) : step s = .next s := by
  simp [step, fetch, hs]

theorem step_of_request_ok {s : State} {bs : Bytes} {rest : List HostEvent} {i : Instr}
    (hs : s.script = .request bs :: rest) (hd : decode bs = .ok i) :
    step s = exec i (s.setScript rest) := by
  simp [step, fetch, fetchRequest, hs, hd]

/-- A request word that R97 refuses is answered ERR_BADOP (R226). -/
theorem step_of_request_refused {s : State} {bs : Bytes} {rest : List HostEvent} {e : DecodeError}
    (hs : s.script = .request bs :: rest) (hd : decode bs = .error e)
    (he : e = .reservedBits ∨ e = .reservedOp ∨ e = .reservedArg) :
    step s = .next ((s.setScript rest).raise .errBadop) := by
  rcases he with rfl | rfl | rfl <;> simp [step, fetch, fetchRequest, hs, hd]

/-- A reset does the same between operations and under a request (R261, I7). -/
theorem step_of_reset {s : State} {ev : HostEvent} {rest : List HostEvent}
    (hs : s.script = ev :: rest) (hev : ev = .reset ∨ ∃ bs, ev = .resetDuring bs) :
    step s = .next (s.setScript rest).platformReset := by
  rcases hev with rfl | ⟨bs, rfl⟩ <;> simp [step, fetch, hs]

/-! ### What an operation leaves unchanged -/

theorem exec_keeps_cap {i : Instr} {s t : State} (h : exec i s = .next t) : t.cap = s.cap := by
  obtain ⟨m, r, e⟩ := exec_next i s
  cases e.symm.trans h
  rfl

theorem exec_keeps_script {i : Instr} {s t : State} (h : exec i s = .next t) : t.script = s.script := by
  obtain ⟨m, r, e⟩ := exec_next i s
  cases e.symm.trans h
  rfl

/-- CHUNK_FEED and REASM_CLEAR are the only operations that write the reassembler (R34). -/
theorem exec_reasm_ne {i : Instr} {s t : State} (h : exec i s = .next t) (hne : t.reasm ≠ s.reasm) :
    ∃ x, i = .chunkFeed x ∨ i = .reasmClear x := by
  rw [exec_answer] at h
  cases h
  cases i with
  | chunkFeed x => exact ⟨x, .inl rfl⟩
  | reasmClear x => exact ⟨x, .inr rfl⟩
  | crc32 _ => exact absurd rfl hne
  | pktEncode _ _ => exact absurd rfl hne
  | pktDecode _ => exact absurd rfl hne
  | chunkEncode _ _ => exact absurd rfl hne

/-- An operation adds one response, and what it does is the same after any other responses (R38). -/
theorem exec_with_responses {i : Instr} {s t : State} (l : List Response) (h : exec i s = .next t) :
    ∃ new, t.responses = s.responses ++ new ∧
      exec i { s with responses := l } = .next { t with responses := l ++ new } := by
  rw [exec_answer] at h
  cases h
  exact ⟨[(answer crc32 s.cap s.reasm i).2], rfl, exec_answer i _⟩

/-! ### The statements -/

/-- Settles O10. -/
theorem resetStateIsFresh : Obligations.ResetStateIsFresh := by
  unfold Obligations.ResetStateIsFresh
  exact ⟨Reassembler.fresh_phase, Reassembler.fresh_expected, Reassembler.fresh_received, Reassembler.fresh_acc⟩

/-- A fresh reassembler meets the IDLE clause of R33 and is not in ACCUM. -/
theorem Reassembler.fresh_inv (cap : Nat) : Reassembler.fresh.Inv cap :=
  ⟨fun _ => ⟨rfl, rfl, rfl⟩, fun h => nomatch h⟩

/-- Settles O11. -/
theorem resetMeetsReassemblerInvariant : Obligations.ResetMeetsReassemblerInvariant := by
  unfold Obligations.ResetMeetsReassemblerInvariant
  exact Reassembler.fresh_inv _

/-- Settles O19, by the four things a step can have done. -/
theorem onlyFeedClearAndResetChangeReassembler : Obligations.OnlyFeedClearAndResetChangeReassembler := by
  intro s t h
  obtain ⟨-, rfl⟩ | ⟨bs, rest, i, hs, hd, hx⟩ | ⟨bs, rest, e, -, -, -, rfl⟩ | ⟨ev, rest, hs, hev, rfl⟩ :=
    step_cases h
  · exact ⟨rfl, fun hne => absurd rfl hne⟩
  · refine ⟨(exec_keeps_cap hx).trans (s.setScript_cap rest), fun hne => ?_⟩
    obtain ⟨x, hi⟩ := exec_reasm_ne hx hne
    refine ⟨_, rest, hs, exec_keeps_script hx, .inr (.inr ⟨bs, x, rfl, ?_⟩)⟩
    rcases hi with rfl | rfl
    · exact .inl hd
    · exact .inr hd
  · exact ⟨rfl, fun hne => absurd rfl hne⟩
  · exact ⟨rfl, fun _ => ⟨ev, rest, hs, rfl, hev.imp_right .inl⟩⟩

/-- Settles O20: the event and, for an operation, the answer are the same whatever the responses are. -/
theorem earlierResponsesAreNeverRead : Obligations.EarlierResponsesAreNeverRead := by
  intro s t l h
  obtain ⟨hs, rfl⟩ | ⟨bs, rest, i, hs, hd, hx⟩ | ⟨bs, rest, e, hs, hd, he, rfl⟩ | ⟨ev, rest, hs, hev, rfl⟩ :=
    step_cases h
  · refine ⟨[], (List.append_nil _).symm, ?_⟩
    rw [List.append_nil]
    exact step_of_script_nil hs
  · obtain ⟨new, hn, hx'⟩ := exec_with_responses l hx
    exact ⟨new, hn, (step_of_request_ok (s := { s with responses := l }) hs hd).trans hx'⟩
  · exact ⟨[.raise .errBadop], rfl, step_of_request_refused hs hd he⟩
  · refine ⟨[], (List.append_nil _).symm, ?_⟩
    rw [List.append_nil]
    exact step_of_reset hs hev

end Sys2Proof.Machine
end

section
/-!
A transfer fed chunk by chunk: what each accepted chunk does to the accumulation under way, and the statements of
20_memory.md about the request at the port and the order of the pieces.
-/

namespace Sys2Proof.Machine

open Claims (feedAll)

/-! ### The accumulation under way -/

/-- The reassembler with k of n pieces taken and the bytes a accumulated. For k = 0 it is what IDLE becomes before
the first piece is taken (R183). -/
abbrev Reassembler.underWay (n k : Nat) (a : Bytes) : Reassembler :=
  ⟨.accum, BitVec.ofNat 16 n, BitVec.ofNat 16 k, a⟩

/-- The pieces of some chunks, one after another in the order of the list. -/
def piecesOf (xs : List Bytes) : Bytes := (xs.map chunkPiece).flatten

@[simp] theorem piecesOf_nil : piecesOf [] = [] := rfl
@[simp] theorem piecesOf_cons (x : Bytes) (xs : List Bytes) : piecesOf (x :: xs) = chunkPiece x ++ piecesOf xs := rfl

/-- The operand is in CHUNK_FEED's length range and holds its header and its piece (R182). -/
abbrev FitsFeed (x : Bytes) : Prop := x.length ≤ 251 ∧ ChunkWellFormed x

/-- In IDLE a chunk with a count is fed as into an accumulation of that count with nothing taken yet (R183). -/
theorem Reassembler.feed_idle_eq_feed_underWay (crc : Config.CrcFn) (cap : Nat) {m : Reassembler} {x : Bytes}
    (hm : m.phase = .idle) (hx : FitsFeed x) (ht : 1 ≤ chunkTotal x) :
    m.feed crc cap x = (underWay (chunkTotal x) 0 []).feed crc cap x := by
  obtain ⟨hl, -, hp⟩ := hx
  rw [feed_accepted crc cap hl hp fun _ => ht, start_idle _ hm,
    feed_accepted crc cap hl hp fun _ => ht, start_accum _ rfl]
  rfl

/-- Feeding chunk k of n, counted from 0, where its piece fits (R186 to R191). -/
theorem Reassembler.feed_underWay (crc : Config.CrcFn) (cap : Nat) {n k : Nat} {a x : Bytes} (hn : n < 65536)
    (hk : k < n) (hx : FitsFeed x) (hc : a.length + (chunkPiece x).length ≤ cap) :
    (underWay n k a).feed crc cap x =
      if k + 1 < n then (underWay n (k + 1) (a ++ chunkPiece x), .respond .incomplete [])
      else (.fresh, completeResponse crc (a ++ chunkPiece x)) := by
  obtain ⟨hl, -, hp⟩ := hx
  calc (underWay n k a).feed crc cap x
    _ = ((underWay n k a).start (chunkTotal x)).take crc cap (chunkPiece x) := feed_accepted crc cap hl hp nofun
    _ = (underWay n k a).take crc cap (chunkPiece x) := by rw [start_accum _ rfl]
    _ = _ := take_counted crc cap hn hk hc

/-- Fewer chunks than are still missing: each is answered INCOMPLETE and its piece appended. -/
theorem feedAll_underWay_of_lt (crc : Config.CrcFn) (cap : Nat) {n : Nat} (hn : n < 65536) {xs : List Bytes}
    {k : Nat} {a : Bytes} (hk : k + xs.length < n) (hx : ∀ x ∈ xs, FitsFeed x)
    (hc : a.length + (piecesOf xs).length ≤ cap) :
    feedAll crc cap (.underWay n k a) xs =
      (.underWay n (k + xs.length) (a ++ piecesOf xs),
        List.replicate xs.length (.respond .incomplete [])) := by
  induction xs generalizing k a with
  | nil => simp [feedAll]
  | cons x xs ih =>
    obtain ⟨hx, hxs⟩ := List.forall_mem_cons.mp hx
    simp only [List.length_cons, piecesOf_cons, List.length_append] at hk hc
    rw [feedAll, Reassembler.feed_underWay crc cap hn (by omega) hx (by omega), if_pos (by omega),
      ih (by omega) hxs (by rw [List.length_append]; omega)]
    simp [List.replicate_succ, Nat.add_assoc, Nat.add_comm 1]

/-- As many chunks as are still missing: the last of them completes the transfer, and the accumulation is checked. -/
theorem feedAll_underWay_of_eq (crc : Config.CrcFn) (cap : Nat) {n : Nat} (hn : n < 65536) {x : Bytes}
    {xs : List Bytes} {k : Nat} {a : Bytes} (hk : k + (x :: xs).length = n) (hx : ∀ y ∈ x :: xs, FitsFeed y)
    (hc : a.length + (piecesOf (x :: xs)).length ≤ cap) :
    feedAll crc cap (.underWay n k a) (x :: xs) =
      (.fresh, List.replicate xs.length (.respond .incomplete []) ++
        [completeResponse crc (a ++ piecesOf (x :: xs))]) := by
  induction xs generalizing x k a with
  | nil =>
    simp only [List.length_cons, List.length_nil, piecesOf_cons, piecesOf_nil, List.append_nil] at hk hc
    rw [feedAll, Reassembler.feed_underWay crc cap hn (by omega) (hx x List.mem_cons_self) hc, if_neg (by omega)]
    simp [feedAll]
  | cons y ys ih =>
    obtain ⟨hx, hys⟩ := List.forall_mem_cons.mp hx
    simp only [List.length_cons] at hk ih
    rw [piecesOf_cons, List.length_append] at hc
    rw [feedAll, Reassembler.feed_underWay crc cap hn (by omega) hx (by omega), if_pos (by omega),
      ih (by omega) hys (by rw [List.length_append]; omega)]
    simp [List.replicate_succ]

/-- The check of a completed accumulation as one condition (R189). -/
theorem completeResponse_eq_ite (crc : Config.CrcFn) (a : Bytes) :
    completeResponse crc a =
      if 4 ≤ a.length ∧ le32 a (a.length - 4) = (crc (a.take (a.length - 4))).toNat then
        .respond .ok [a.take (a.length - 4)] else .raise .errIntegrity := by
  obtain ⟨e, h⟩ | ⟨e, h⟩ := completeResponse_cases crc a
  · rw [e, if_neg fun ⟨hl, hcrc⟩ => h.elim (by omega) (· hcrc)]
  · rw [e, if_pos h]

/-- A transfer fed from IDLE is fed as into an accumulation of the first chunk's count with nothing taken yet. -/
theorem feedAll_idle_eq_feedAll_underWay (crc : Config.CrcFn) (cap : Nat) {m : Reassembler} {x : Bytes}
    (xs : List Bytes) (hm : m.phase = .idle) (hx : FitsFeed x) (ht : 1 ≤ chunkTotal x) :
    feedAll crc cap m (x :: xs) = feedAll crc cap (.underWay (chunkTotal x) 0 []) (x :: xs) := by
  simp only [feedAll, Reassembler.feed_idle_eq_feed_underWay crc cap hm hx ht]

/-! ### The statements -/

/-- Settles O6. -/
theorem stepRunsDecodedRequest : Obligations.StepRunsDecodedRequest := by
  unfold Obligations.StepRunsDecodedRequest
  exact fun _ _ _ _ hs hd => step_of_request_ok hs hd

/-- Settles O45: from IDLE the first chunk opens an accumulation with nothing taken, and each chunk then moves it on
by one piece. -/
theorem accumulationIsArrivalOrder : Obligations.AccumulationIsArrivalOrder := by
  rintro crc cap m first more xs all hm rfl hx rfl hc
  have hfirst : FitsFeed first := hx first List.mem_cons_self
  have hstart : 1 ≤ chunkTotal first → feedAll crc cap m (first :: more) = _ :=
    feedAll_idle_eq_feedAll_underWay crc cap more hm hfirst
  have hfit : ([] : Bytes).length + (piecesOf (first :: more)).length ≤ cap := (Nat.zero_add _).trans_le hc
  refine ⟨fun (hlt : _ < chunkTotal first) => ?_, fun (heq : _ = chunkTotal first) => ?_⟩
  · rw [hstart (Nat.zero_lt_of_lt hlt),
      feedAll_underWay_of_lt crc cap (chunkTotal_lt first) (by omega) hx hfit, Nat.zero_add]
    rfl
  · rw [hstart (heq ▸ Nat.succ_pos _),
      feedAll_underWay_of_eq crc cap (chunkTotal_lt first) (by omega) hx hfit, completeResponse_eq_ite]
    rfl

end Sys2Proof.Machine
end

section
/-!
The request word and its fields read both ways, what the decoder accepts and refuses, the form of every response, the
layout of frames and transfers, and the request programs of R102: the statements of 30_encoding.md.
-/

namespace Sys2Proof.Machine

open Claims (IllegalWord requestBytes)

/-! ### Little-endian words, written after they are read -/

theorem byteAt_eq_getElem {b : Bytes} {i : Nat} (h : i < b.length) : byteAt b i = b[i] := by
  simp [byteAt, h]

theorem slice_four {b : Bytes} {i : Nat} (h : i + 4 ≤ b.length) :
    slice b i 4 = [byteAt b i, byteAt b (i + 1), byteAt b (i + 2), byteAt b (i + 3)] := by
  rw [byteAt_eq_getElem (by omega), byteAt_eq_getElem (by omega), byteAt_eq_getElem (by omega),
    byteAt_eq_getElem (by omega), slice, List.drop_eq_getElem_cons (by omega), List.drop_eq_getElem_cons (by omega),
    List.drop_eq_getElem_cons (by omega), List.drop_eq_getElem_cons (by omega)]
  rfl

/-- The four bytes a u32 was read from are the bytes it is written as (R11). -/
theorem put32_le32 {b : Bytes} {i : Nat} (h : i + 4 ≤ b.length) : put32 (le32 b i) = slice b i 4 := by
  have h0 := (byteAt b i).isLt
  have h1 := (byteAt b (i + 1)).isLt
  have h2 := (byteAt b (i + 2)).isLt
  have h3 := (byteAt b (i + 3)).isLt
  rw [slice_four h]
  simp only [put32, le32, bits, List.cons.injEq, and_true, ← BitVec.toNat_inj, BitVec.toNat_ofNat]
  omega

/-! ### The request word -/

/-- A u32 word is its three fields (R94). -/
theorem word_eq_fields {q : Nat} (hq : q < 4294967296) :
    q = opField q + 2 ^ 8 * argField q + 2 ^ 16 * rsvdField q := by
  simp only [opField, argField, rsvdField, bits]
  omega

theorem op_lt (i : Instr) : i.op < 256 := by
  cases i <;> simp [Instr.op]

@[simp] theorem opField_requestWord (i : Instr) : opField (requestWord i) = i.op := by
  have := op_lt i
  simp only [opField, requestWord, bits]
  omega

@[simp] theorem argField_requestWord (i : Instr) : argField (requestWord i) = i.arg8.toNat := by
  have := op_lt i
  have := i.arg8.isLt
  simp only [argField, requestWord, bits]
  omega

@[simp] theorem rsvdField_requestWord (i : Instr) : rsvdField (requestWord i) = 0 := by
  have := requestWord_lt i
  simp only [rsvdField, bits]
  omega

theorem ofNat_argField_toNat (q : Nat) : (BitVec.ofNat 8 (argField q)).toNat = argField q := by
  simp only [argField, bits, BitVec.toNat_ofNat]
  omega

/-- What an operation decoded from a word is: its op code, argument byte and operand are those of the request, and
the reserved field is 0 (R96, R97). -/
theorem decodeWord_eq_ok {q : Nat} {x : Bytes} {i : Instr} :
    decodeWord q x = .ok i ↔
      rsvdField q = 0 ∧ i.op = opField q ∧ i.arg8.toNat = argField q ∧ i.operand = x := by
  constructor
  · intro h
    unfold decodeWord at h
    have harg := ofNat_argField_toNat q
    split_ifs at h with h0 h1 h2 h3 h4 h5 h6
    · obtain ⟨ha, rfl⟩ := needsZeroArg_ok.mp h
      exact ⟨not_not.mp h0, h1.symm, ha.symm, rfl⟩
    · cases h
      exact ⟨not_not.mp h0, h2.symm, harg, rfl⟩
    · obtain ⟨ha, rfl⟩ := needsZeroArg_ok.mp h
      exact ⟨not_not.mp h0, h3.symm, ha.symm, rfl⟩
    · cases h
      exact ⟨not_not.mp h0, h4.symm, harg, rfl⟩
    · obtain ⟨ha, rfl⟩ := needsZeroArg_ok.mp h
      exact ⟨not_not.mp h0, h5.symm, ha.symm, rfl⟩
    · obtain ⟨ha, rfl⟩ := needsZeroArg_ok.mp h
      exact ⟨not_not.mp h0, h6.symm, ha.symm, rfl⟩
  · rintro ⟨h0, hop, harg, rfl⟩
    cases i <;> simp_all [decodeWord, needsZeroArg, Instr.op, Instr.arg8, Instr.operand, ← hop, ← harg]

theorem needsZeroArg_eq_error {q : Nat} {i : Instr} {e : DecodeError} :
    needsZeroArg q i = .error e ↔ argField q ≠ 0 ∧ e = .reservedArg := by
  unfold needsZeroArg
  split
  · simp_all [eq_comm]
  · simp_all

/-- A word that is refused is illegal, and the refusal is one of the three of R97. -/
theorem decodeWord_eq_error {q : Nat} {x : Bytes} {e : DecodeError} (h : decodeWord q x = .error e) :
    IllegalWord q ∧ (e = .reservedBits ∨ e = .reservedOp ∨ e = .reservedArg) := by
  have badArg {i : Instr} (hi : needsZeroArg q i = .error e) (hop : opField q ∈ [0x01, 0x03, 0x05, 0x06]) :
      IllegalWord q ∧ (e = .reservedBits ∨ e = .reservedOp ∨ e = .reservedArg) := by
    obtain ⟨ha, rfl⟩ := needsZeroArg_eq_error.mp hi
    exact ⟨.inr (.inr ⟨hop, ha⟩), .inr (.inr rfl)⟩
  unfold decodeWord at h
  split_ifs at h with h0 h1 h2 h3 h4 h5 h6
  · cases h
    exact ⟨.inl h0, .inl rfl⟩
  · exact badArg h (by simp [h1])
  · exact badArg h (by simp [h3])
  · exact badArg h (by simp [h5])
  · exact badArg h (by simp [h6])
  · cases h
    have hop : opField q ∉ [0x01, 0x02, 0x03, 0x04, 0x05, 0x06] := by simp [h1, h2, h3, h4, h5, h6]
    exact ⟨.inr (.inl hop), .inr (.inl rfl)⟩

/-- The word of an operation is legal (R98). -/
theorem legal_of_decodeWord_ok {q : Nat} {x : Bytes} {i : Instr} (h : decodeWord q x = .ok i) :
    ¬ IllegalWord q := by
  obtain ⟨h0, hop, harg, -⟩ := decodeWord_eq_ok.mp h
  simp only [rsvdField, opField, argField] at h0 hop harg
  simp only [IllegalWord, h0, ← hop, ← harg]
  cases i <;> simp [Instr.op, Instr.arg8]

/-! ### The serialised request -/

/-- Bytes that are a request are the serialisation of the word and the operand read from them (R94). -/
theorem requestBytes_of_isRequest {bs : Bytes} (h : IsRequest bs) :
    requestBytes (le32 bs 0) (bs.drop 8) = bs := by
  obtain ⟨h8, hl⟩ := h
  rw [requestBytes, hl, put32_le32 (by omega), put32_le32 (by omega)]
  calc slice bs 0 4 ++ slice bs 4 4 ++ bs.drop 8
    _ = bs.take 4 ++ (bs.drop 4).take 4 ++ bs.drop 8 := rfl
    _ = bs.take 8 ++ bs.drop 8 := by rw [← List.take_add]
    _ = bs := List.take_append_drop 8 bs

/-- Only a request is decoded to an operation (R94). -/
theorem isRequest_of_decode_ok {bs : Bytes} {i : Instr} (h : decode bs = .ok i) : IsRequest bs := by
  unfold decode at h
  split_ifs at h with h8 hl
  exact ⟨not_lt.mp h8, not_not.mp hl⟩

/-- A request is decoded by its word (R97). -/
theorem decode_of_isRequest {bs : Bytes} (h : IsRequest bs) :
    decode bs = decodeWord (le32 bs 0) (bs.drop 8) := by
  rw [decode, if_neg (not_lt.mpr h.1), if_neg (not_not.mpr h.2)]

/-- The decoder reads back what the encoder wrote (R94, R97). -/
theorem decode_encode {i : Instr} (hi : i.WellFormed) : decode (encode i) = .ok i := by
  rw [encode, decode_request ((requestWord_lt i).trans (by decide)) hi, decodeWord_eq_ok]
  exact ⟨rsvdField_requestWord i, (opField_requestWord i).symm, (argField_requestWord i).symm, rfl⟩

/-- The operation decoded from a request has no other serialisation (R94). -/
theorem encode_of_decode {bs : Bytes} {i : Instr} (h : decode bs = .ok i) : i.WellFormed ∧ encode i = bs := by
  have hr := isRequest_of_decode_ok h
  obtain ⟨h0, hop, harg, hx⟩ := decodeWord_eq_ok.mp ((decode_of_isRequest hr).symm.trans h)
  have hq : requestWord i = le32 bs 0 := by
    rw [word_eq_fields (le32_lt bs 0), h0, requestWord, hop, harg]; rfl
  constructor
  · rw [Instr.WellFormed, hx, hr.2]
    exact le32_lt bs 4
  · rw [encode, hq, hx]
    exact requestBytes_of_isRequest hr

/-- Settles O1: the fields of the request word are read back. -/
theorem decodeOfEncodeIsIdentity : Obligations.DecodeOfEncodeIsIdentity := by
  unfold Obligations.DecodeOfEncodeIsIdentity
  exact fun _ hi => decode_encode hi

/-- Settles O2: the word and the length are written back as they were read. -/
theorem decodedBytesReencode : Obligations.DecodedBytesReencode := by
  unfold Obligations.DecodedBytesReencode
  exact fun _ _ h => encode_of_decode h

/-- Settles O3, by evaluation. -/
theorem sampleRequestsDecode : Obligations.SampleRequestsDecode := by
  unfold Obligations.SampleRequestsDecode
  decide

/-- Settles O4, by what the request word decodes to. -/
theorem requestWordsAreCheckedFirst : Obligations.RequestWordsAreCheckedFirst := by
  intro s q x rest hq hx hs
  have hd : decode (requestBytes q x) = decodeWord q x := decode_request hq hx
  cases hw : decodeWord q x with
  | ok i =>
    obtain ⟨-, hop, harg, hox⟩ := decodeWord_eq_ok.mp hw
    exact ⟨fun h => absurd h (legal_of_decodeWord_ok hw),
      fun _ => ⟨i, hop, harg, hox, step_of_request_ok hs (hd.trans hw)⟩⟩
  | error e =>
    obtain ⟨hill, he⟩ := decodeWord_eq_error hw
    exact ⟨fun _ => step_of_request_refused hs (hd.trans hw) he, fun h => absurd hill h⟩

/-! ### The form of a response -/

theorem pktEncodeResponse_cases (crc : Config.CrcFn) (cmd : Byte) (x : Bytes) :
    (251 < x.length ∧ pktEncodeResponse crc cmd x = .raise .errLength) ∨
    (x.length ≤ 251 ∧ pktEncodeResponse crc cmd x = .respond .ok [makeFrame crc cmd x]) := by
  unfold pktEncodeResponse
  split
  · exact .inl ⟨‹_›, rfl⟩
  · exact .inr ⟨not_lt.mp ‹_›, rfl⟩

theorem pktEncodeResponse_eq (crc : Config.CrcFn) (cmd : Byte) {x : Bytes} (h : x.length ≤ 251) :
    pktEncodeResponse crc cmd x = .respond .ok [makeFrame crc cmd x] := by
  obtain ⟨hlong, -⟩ | ⟨-, e⟩ := pktEncodeResponse_cases crc cmd x
  · omega
  · exact e

theorem chunkEncodeResponse_cases (crc : Config.CrcFn) (sub : Byte) (x : Bytes) :
    (15728396 < x.length ∧ chunkEncodeResponse crc sub x = .raise .errLength) ∨
    (x.length ≤ 15728396 ∧ chunkEncodeResponse crc sub x = .respond .ok (makeChunks crc sub x)) := by
  unfold chunkEncodeResponse
  split
  · exact .inl ⟨‹_›, rfl⟩
  · exact .inr ⟨not_lt.mp ‹_›, rfl⟩

theorem chunkEncodeResponse_eq (crc : Config.CrcFn) (sub : Byte) {x : Bytes} (h : x.length ≤ 15728396) :
    chunkEncodeResponse crc sub x = .respond .ok (makeChunks crc sub x) := by
  obtain ⟨hlong, -⟩ | ⟨-, e⟩ := chunkEncodeResponse_cases crc sub x
  · omega
  · exact e

/-- Everything PKT_DECODE can answer (R147): the payload of an intact frame, or one of two errors. -/
theorem pktDecodeResponse_cases (crc : Config.CrcFn) (x : Bytes) :
    (x.length ≠ 256 ∧ pktDecodeResponse crc x = .raise .errLength) ∨
    (x.length = 256 ∧ ¬ Intact crc x ∧ pktDecodeResponse crc x = .raise .errIntegrity) ∨
    (x.length = 256 ∧ Intact crc x ∧ pktDecodeResponse crc x = ⟨.ok, frameCmd x, [framePayload x]⟩) := by
  unfold pktDecodeResponse
  split
  · exact .inl ⟨‹_›, rfl⟩
  · split
    · exact .inr (.inl ⟨not_not.mp ‹_›, ‹_›, rfl⟩)
    · exact .inr (.inr ⟨not_not.mp ‹_›, not_not.mp ‹_›, rfl⟩)

theorem pktDecodeResponse_of_intact {crc : Config.CrcFn} {x : Bytes} (hl : x.length = 256) (hc : Intact crc x) :
    pktDecodeResponse crc x = ⟨.ok, frameCmd x, [framePayload x]⟩ := by
  obtain ⟨h, -⟩ | ⟨-, h, -⟩ | ⟨-, -, e⟩ := pktDecodeResponse_cases crc x
  · exact absurd hl h
  · exact absurd hc h
  · exact e

theorem pktDecodeResponse_of_not_intact {crc : Config.CrcFn} {x : Bytes} (h : x.length ≠ 256 ∨ ¬ Intact crc x) :
    ∃ e, e ≠ .ok ∧ pktDecodeResponse crc x = .raise e := by
  obtain ⟨-, e⟩ | ⟨-, -, e⟩ | ⟨hl, hc, -⟩ := pktDecodeResponse_cases crc x
  · exact ⟨_, by decide, e⟩
  · exact ⟨_, by decide, e⟩
  · exact absurd h (by simp [hl, hc])

/-- The segmenter makes no more pieces than a u16 counts (R172). -/
theorem pieceCount_le {n : Nat} (h : n ≤ 15728396) : pieceCount n ≤ 65535 := by
  simp only [pieceCount, ceilDiv, Config.crcLen, Config.pieceLen]
  omega

@[simp] theorem makeChunks_length (crc : Config.CrcFn) (sub : Byte) (x : Bytes) :
    (makeChunks crc sub x).length = pieceCount x.length := by
  simp [makeChunks]

/-- A response with arg_out 0, with an output only where it is OK, and no more outputs than a u16 counts: every
response but that of a PKT_DECODE that is OK (R99). -/
def Response.Plain (r : Response) : Prop :=
  r.argOut = 0 ∧ (r.status ≠ .ok → r.outs = []) ∧ r.outs.length ≤ 65535

theorem plain_of_outs_nil (st : Status) : (Response.respond st []).Plain :=
  ⟨rfl, fun _ => rfl, Nat.zero_le _⟩

theorem plain_of_ok {outs : List Bytes} (h : outs.length ≤ 65535) : (Response.respond .ok outs).Plain :=
  ⟨rfl, fun hne => absurd rfl hne, h⟩

theorem Reassembler.take_plain (crc : Config.CrcFn) (cap : Nat) (m : Reassembler) (p : Bytes) :
    (m.take crc cap p).2.Plain := by
  obtain ⟨-, e⟩ | ⟨-, -, e⟩ | ⟨-, -, e⟩ := m.take_cases crc cap p
  · rw [e]
    exact plain_of_outs_nil _
  · rw [e]
    exact plain_of_outs_nil _
  · rw [e]
    obtain ⟨e, -⟩ | ⟨e, -⟩ := completeResponse_cases crc (m.acc ++ p)
    · rw [e]
      exact plain_of_outs_nil _
    · rw [e]
      exact plain_of_ok (by simp)

theorem Reassembler.feed_plain (crc : Config.CrcFn) (cap : Nat) (m : Reassembler) (x : Bytes) :
    (m.feed crc cap x).2.Plain := by
  obtain ⟨-, e⟩ | ⟨-, -, e⟩ | ⟨-, -, -, e⟩ := m.feed_cases crc cap x
  · rw [e]
    exact plain_of_outs_nil _
  · rw [e]
    exact plain_of_outs_nil _
  · rw [e]
    exact take_plain crc cap _ _

theorem Reassembler.clear_response (m : Reassembler) (x : Bytes) : ∃ st, (m.clear x).2 = .respond st [] := by
  unfold Reassembler.clear
  split
  · exact ⟨.errLength, rfl⟩
  · exact ⟨.ok, rfl⟩

/-- What R99 says of the response to a request that decodes to d. -/
structure Response.ShapeFor (d : Except DecodeError Instr) (r : Response) : Prop where
  argOut_of_decoded : ∀ x, d = .ok (.pktDecode x) → r.status = .ok → r.argOut = byteAt x 0
  argOut_zero : (∀ x, d ≠ .ok (.pktDecode x)) ∨ r.status ≠ .ok → r.argOut = 0
  outs_of_ne_ok : r.status ≠ .ok → r.outs = []
  outs_of_clear : ∀ x, d = .ok (.reasmClear x) → r.outs = []
  outs_le : r.outs.length ≤ 65535

theorem Response.Plain.shapeFor {d : Except DecodeError Instr} {r : Response} (h : r.Plain)
    (hd : ∀ x, d = .ok (.pktDecode x) → r.status ≠ .ok) (hc : ∀ x, d = .ok (.reasmClear x) → r.outs = []) :
    r.ShapeFor d :=
  have ⟨harg, houts, hle⟩ := h
  ⟨fun x hx hok => absurd hok (hd x hx), fun _ => harg, houts, hc, hle⟩

theorem pktDecode_shapeFor (crc : Config.CrcFn) (x : Bytes) :
    (pktDecodeResponse crc x).ShapeFor (.ok (.pktDecode x)) := by
  obtain ⟨-, e⟩ | ⟨-, -, e⟩ | ⟨-, -, e⟩ := pktDecodeResponse_cases crc x
  · rw [e]
    exact (plain_of_outs_nil _).shapeFor nofun nofun
  · rw [e]
    exact (plain_of_outs_nil _).shapeFor nofun nofun
  · rw [e]
    exact ⟨fun _ hx _ => by cases hx; rfl, by simp, fun h => absurd rfl h, nofun, by simp⟩

/-- Every operation's response is as R99 says, whatever the block holds. -/
theorem answer_shapeFor (crc : Config.CrcFn) (cap : Nat) (m : Reassembler) (i : Instr) :
    (answer crc cap m i).2.ShapeFor (.ok i) := by
  cases i with
  | crc32 x => exact (plain_of_ok (by simp)).shapeFor nofun nofun
  | pktEncode cmd x =>
    obtain ⟨-, e⟩ | ⟨-, e⟩ := pktEncodeResponse_cases crc cmd x
    · rw [answer, e]
      exact (plain_of_outs_nil _).shapeFor nofun nofun
    · rw [answer, e]
      exact (plain_of_ok (by simp)).shapeFor nofun nofun
  | pktDecode x => exact pktDecode_shapeFor crc x
  | chunkEncode sub x =>
    obtain ⟨-, e⟩ | ⟨hx, e⟩ := chunkEncodeResponse_cases crc sub x
    · rw [answer, e]
      exact (plain_of_outs_nil _).shapeFor nofun nofun
    · rw [answer, e]
      exact (plain_of_ok (by simpa using pieceCount_le hx)).shapeFor nofun nofun
  | chunkFeed x => exact (m.feed_plain crc cap x).shapeFor nofun nofun
  | reasmClear x =>
    obtain ⟨st, e⟩ := m.clear_response x
    rw [answer, e]
    exact (plain_of_outs_nil st).shapeFor nofun fun _ _ => rfl

/-- A request, reserved words included, is answered once, in the form of R99. -/
theorem step_of_isRequest {s : State} {bs : Bytes} {rest : List HostEvent}
    (hs : s.script = .request bs :: rest) (hr : IsRequest bs) :
    ∃ m r, step s = .next (((s.setScript rest).setReasm m).respond r) ∧ r.ShapeFor (decode bs) := by
  cases hd : decode bs with
  | ok i => exact ⟨_, _, (step_of_request_ok hs hd).trans (exec_answer i _), answer_shapeFor _ _ _ i⟩
  | error e =>
    obtain ⟨-, he⟩ := decodeWord_eq_error ((decode_of_isRequest hr).symm.trans hd)
    exact ⟨s.reasm, _, step_of_request_refused hs hd he, (plain_of_outs_nil _).shapeFor nofun nofun⟩

/-- Settles O7, by the form of each operation's response. -/
theorem everyRequestGetsOneResponse : Obligations.EveryRequestGetsOneResponse := by
  refine ⟨fun s bs rest hs hr => ?_, fun _ => rfl⟩
  obtain ⟨m, r, hstep, hdec, hzero, hne, hclear, hle⟩ := step_of_isRequest hs hr
  exact ⟨m, r, hstep, hdec, hzero, hne, hclear, hle⟩

/-! ### The serialised response -/

/-- A byte names a status exactly when it is that status's number (R100). -/
theorem ofCode?_eq_some {b : Byte} {st : Status} : Status.ofCode? b = some st ↔ st.code = b := by
  constructor
  · intro h
    unfold Status.ofCode? at h
    split_ifs at h <;> cases h <;> exact Eq.symm ‹_›
  · rintro rfl
    cases st <;> rfl

theorem code_injective : Function.Injective Status.code := fun _ _ h =>
  Option.some.inj ((ofCode?_eq_some.mpr h).symm.trans (ofCode?_eq_some.mpr rfl))

/-- Outputs are read back one by one: the length in front says where each ends (R99). -/
theorem outBytes_append_inj {o o' a a' : Bytes} (ho : o.length < 4294967296) (ho' : o'.length < 4294967296)
    (h : outBytes o ++ a = outBytes o' ++ a') : o = o' ∧ a = a' := by
  simp only [outBytes, List.append_assoc] at h
  have hlen : o.length = o'.length := by
    rw [← le32_put32 (o ++ a) ho, h, le32_put32 _ ho']
  rw [hlen] at h
  exact List.append_inj (List.append_cancel_left h) hlen

theorem outBytes_flatten_inj {os os' : List Bytes} (hl : os.length = os'.length)
    (ho : ∀ o ∈ os, o.length < 4294967296) (ho' : ∀ o ∈ os', o.length < 4294967296)
    (h : (os.map outBytes).flatten = (os'.map outBytes).flatten) : os = os' := by
  induction os generalizing os' with
  | nil => exact (List.length_eq_zero_iff.mp hl.symm).symm
  | cons o os ih =>
    cases os' with
    | nil => cases hl
    | cons o' os' =>
      obtain ⟨hoh, hot⟩ := List.forall_mem_cons.mp ho
      obtain ⟨hoh', hot'⟩ := List.forall_mem_cons.mp ho'
      obtain ⟨rfl, hrest⟩ := outBytes_append_inj hoh hoh' h
      rw [ih (Nat.succ.inj hl) hot hot' hrest]

/-- Settles O8. -/
theorem statusCodesAreNumbered : Obligations.StatusCodesAreNumbered := by
  unfold Obligations.StatusCodesAreNumbered
  exact ⟨rfl, rfl, rfl, rfl, rfl, rfl, rfl, fun _ _ => ofCode?_eq_some⟩

/-- Settles O9: the number of the status, arg_out, the count, and then each output by its length. -/
theorem responseBytesDetermineResponse : Obligations.ResponseBytesDetermineResponse := by
  rintro ⟨st, a, os⟩ ⟨st', a', os'⟩ ⟨hn, ho⟩ ⟨hn', ho'⟩ h
  simp only [Response.toBytes, List.cons_append, List.nil_append, List.cons.injEq] at h
  obtain ⟨hst, rfl, h⟩ := h
  have hlen : os.length = os'.length := by
    rw [← le16_put16 (os.map outBytes).flatten hn, h, le16_put16 _ hn']
  rw [hlen] at h
  rw [code_injective hst, outBytes_flatten_inj hlen ho ho' (List.append_cancel_left h)]

/-! ### The layout of a frame -/

/-- The 252 bytes of a frame that its CRC covers: command id, payload and pad (R80). -/
def frameBody (cmd : Byte) (x : Bytes) : Bytes := [cmd] ++ x ++ zeros (251 - x.length)

theorem makeFrame_eq (crc : Config.CrcFn) (cmd : Byte) (x : Bytes) :
    makeFrame crc cmd x = frameBody cmd x ++ put32 (crc (frameBody cmd x)).toNat := rfl

theorem frameBody_length (cmd : Byte) {x : Bytes} (h : x.length ≤ 251) : (frameBody cmd x).length = 252 := by
  simp [frameBody]
  omega

theorem zeros_add (m n : Nat) : zeros (m + n) = zeros m ++ zeros n := List.replicate_add m n 0

/-- Zero bytes after a payload are pad bytes already (R82). -/
theorem frameBody_append_zeros (cmd : Byte) {x : Bytes} {k : Nat} (h : x.length + k ≤ 251) :
    frameBody cmd (x ++ zeros k) = frameBody cmd x := by
  have hpad : 251 - x.length = k + (251 - (x.length + k)) := by omega
  simp only [frameBody, List.length_append, zeros_length]
  rw [hpad, zeros_add]
  simp

theorem frameSpan_makeFrame (crc : Config.CrcFn) (cmd : Byte) {x : Bytes} (h : x.length ≤ 251) :
    frameSpan (makeFrame crc cmd x) = frameBody cmd x := by
  have hl := frameBody_length cmd h
  rw [frameSpan, makeFrame_eq, slice_append_left _ (by simp [hl]), slice_zero]
  exact List.take_of_length_le hl.le

theorem framePayload_makeFrame (crc : Config.CrcFn) (cmd : Byte) {x : Bytes} (h : x.length ≤ 251) :
    framePayload (makeFrame crc cmd x) = x ++ zeros (251 - x.length) := by
  rw [framePayload, makeFrame_eq, slice_append_left _ (by simp [frameBody_length cmd h])]
  refine List.take_of_length_le (l := x ++ zeros (251 - x.length)) ?_
  simp
  omega

theorem slice_crc_makeFrame (crc : Config.CrcFn) (cmd : Byte) {x : Bytes} (h : x.length ≤ 251) :
    slice (makeFrame crc cmd x) 252 4 = put32 (crc (frameBody cmd x)).toNat := by
  have hl := frameBody_length cmd h
  rw [makeFrame_eq, slice_append_right _ _ hl.le, hl]
  rfl

/-- Every frame the encoder makes is intact (R81). -/
theorem makeFrame_intact (crc : Config.CrcFn) (cmd : Byte) {x : Bytes} (h : x.length ≤ 251) :
    Intact crc (makeFrame crc cmd x) := by
  have hl := frameBody_length cmd h
  rw [Intact, frameSpan_makeFrame crc cmd h, frameCrc, makeFrame_eq, le32_append_right _ hl.le, hl]
  exact le32_put32 [] (BitVec.isLt _)

/-- Settles O27: the one output is `makeFrame`, whose parts are read back one by one. -/
theorem frameLayout : Obligations.FrameLayout := by
  intro crc cmd x f hx hf
  obtain rfl : makeFrame crc cmd x = f := by
    simpa using congrArg Response.outs ((pktEncodeResponse_eq crc cmd hx).symm.trans hf)
  have hspan : slice (makeFrame crc cmd x) 0 252 = frameBody cmd x := frameSpan_makeFrame crc cmd hx
  refine ⟨?_, rfl, framePayload_makeFrame crc cmd hx, ?_, makeFrame_intact crc cmd hx⟩
  · rw [makeFrame_eq, List.length_append, frameBody_length cmd hx, put32_length]
  · rw [hspan]
    exact slice_crc_makeFrame crc cmd hx

/-- Settles O31: both payloads have the same 252 bytes before the CRC. -/
theorem trailingZerosGiveSameFrame : Obligations.TrailingZerosGiveSameFrame := by
  intro crc cmd x k h
  rw [pktEncodeResponse_eq crc cmd (x := x ++ zeros k) (by simpa using h), pktEncodeResponse_eq crc cmd (by omega),
    makeFrame_eq, makeFrame_eq, frameBody_append_zeros cmd h]

/-! ### The chunks of a transfer -/

/-- Chunk j of a buffer's transfer (R171). -/
def chunkOf (crc : Config.CrcFn) (sub : Byte) (x : Bytes) (j : Nat) : Bytes :=
  makeChunk sub (pieceCount x.length) j (streamPiece (transferStream crc x) j)

theorem makeChunks_eq (crc : Config.CrcFn) (sub : Byte) (x : Bytes) :
    makeChunks crc sub x = (List.range (pieceCount x.length)).map (chunkOf crc sub x) := rfl

/-- Piece j of a stream is what is left of it after 240 j bytes, up to 240 bytes (R171). -/
theorem streamPiece_eq (s : Bytes) (j : Nat) : streamPiece s j = (s.drop (240 * j)).take 240 := by
  rw [streamPiece, slice, ← List.length_drop]
  exact List.take_eq_take_min.symm

theorem streamPiece_length_le (s : Bytes) (j : Nat) : (streamPiece s j).length ≤ 240 := by
  rw [streamPiece_eq]
  exact List.length_take_le _ _

/-- The first n pieces of a stream are its first 240 n bytes (R88). -/
theorem flatten_streamPieces (s : Bytes) (n : Nat) :
    ((List.range n).map (streamPiece s)).flatten = s.take (240 * n) := by
  induction n with
  | zero => rfl
  | succ n ih =>
    rw [List.range_succ, List.map_append, List.flatten_append, ih, Nat.mul_succ, List.take_add, ← streamPiece_eq]
    simp

/-- The pieces reach to the end of the stream (R171). -/
theorem transferStream_length_le (crc : Config.CrcFn) (x : Bytes) :
    (transferStream crc x).length ≤ 240 * pieceCount x.length := by
  simp only [transferStream, List.length_append, put32_length, pieceCount, ceilDiv, Config.crcLen, Config.pieceLen]
  omega

theorem chunkOf_length_le (crc : Config.CrcFn) (sub : Byte) (x : Bytes) (j : Nat) :
    (chunkOf crc sub x j).length ≤ 247 := by
  have := streamPiece_length_le (transferStream crc x) j
  rw [chunkOf, makeChunk_length]
  omega

/-- The header and the piece of each chunk of a transfer (R85, R171). -/
theorem chunkOf_fields (crc : Config.CrcFn) (sub : Byte) {x : Bytes} (hx : x.length ≤ 15728396) {j : Nat}
    (hj : j < pieceCount x.length) :
    chunkSub (chunkOf crc sub x j) = sub ∧ chunkTotal (chunkOf crc sub x j) = pieceCount x.length ∧
      chunkIndex (chunkOf crc sub x j) = j ∧
      chunkPiece (chunkOf crc sub x j) = streamPiece (transferStream crc x) j := by
  have hn := pieceCount_le hx
  have hp := streamPiece_length_le (transferStream crc x) j
  obtain ⟨hsub, htotal, hindex, -, hpiece⟩ :=
    makeChunk_fields sub (total := pieceCount x.length) (index := j) [] (by omega) (by omega)
      (p := streamPiece (transferStream crc x) j) (by omega)
  rw [List.append_nil] at hsub htotal hindex hpiece
  exact ⟨hsub, htotal, hindex, hpiece⟩

/-- The pieces of a transfer in index order are its stream (R88). -/
theorem piecesOf_makeChunks (crc : Config.CrcFn) (sub : Byte) {x : Bytes} (hx : x.length ≤ 15728396) :
    piecesOf (makeChunks crc sub x) = transferStream crc x := by
  have hpieces : (makeChunks crc sub x).map chunkPiece =
      (List.range (pieceCount x.length)).map (streamPiece (transferStream crc x)) := by
    rw [makeChunks_eq, List.map_map]
    refine List.map_congr_left fun j hj => ?_
    obtain ⟨-, -, -, hpiece⟩ := chunkOf_fields crc sub hx (List.mem_range.mp hj)
    exact hpiece
  rw [piecesOf, hpieces, flatten_streamPieces]
  exact List.take_of_length_le (transferStream_length_le crc x)

/-- Settles O35: each chunk's fields, and the pieces as the first bytes of the stream, up to its end. -/
theorem transferCarriesDataAndCrc : Obligations.TransferCarriesDataAndCrc := by
  intro crc sub d hd
  refine ⟨makeChunks crc sub d, chunkEncodeResponse_eq crc sub hd, piecesOf_makeChunks crc sub hd,
    fun j c hc => ?_⟩
  rw [makeChunks_eq, List.getElem?_map, Option.map_eq_some_iff] at hc
  obtain ⟨k, hk, rfl⟩ := hc
  obtain ⟨hj, rfl⟩ := List.getElem?_eq_some_iff.mp hk
  rw [List.length_range] at hj
  rw [List.getElem_range, makeChunks_length]
  obtain ⟨hsub, htotal, hindex, -⟩ := chunkOf_fields crc sub hd hj
  exact ⟨hsub, htotal, hindex⟩

/-! ### Request programs -/

/-- A request the host issues is run at once, and the port is then as it was (R70, R97). -/
theorem step_of_issued {i : Instr} (hi : i.WellFormed) (s : State) :
    step (s.setScript (.request (encode i) :: s.script)) = exec i s :=
  step_of_request_ok rfl (decode_encode hi)

theorem runLinesFrom_nil (n : Nat) (s : State) : runLinesFrom n [] s = .next s := rfl

/-- A line that is not assembled ends the run (R102). -/
theorem runLinesFrom_of_none {n : Nat} {l : Line} {s : State} (ls : List Line)
    (h : l.assemble (s.responses.drop n) = none) : runLinesFrom n (l :: ls) s = .next s := by
  simp only [runLinesFrom, h]

/-- A line that names an operation a request can carry is run, and the program goes on after its response (R101). -/
theorem runLinesFrom_cons {n : Nat} {l : Line} {i : Instr} {s t : State} (ls : List Line)
    (ho : l.operation (s.responses.drop n) = some i) (hi : i.WellFormed) (hx : exec i s = .next t) :
    runLinesFrom n (l :: ls) s = runLinesFrom n ls t := by
  simp only [runLinesFrom, Line.assemble_eq_some.mpr ⟨ho, hi⟩, step_of_issued hi, hx]

/-- `$1.out[j]` is output j of the first response the program had (R101). -/
theorem eval_out_one {resp more : List Response} {r : Response} (h : resp = r :: more) (j : Nat) :
    (BytesExpr.out 1 j).eval resp = r.outs[j]? := by
  simp [BytesExpr.eval, h]

/-- PKT_ENCODE lines on outputs of the program's first operation add the response to each, in order. -/
theorem runLinesFrom_pktEncode_outs (c : Byte) {r : Response} {f : Nat → Bytes} {before : List Response}
    (hf : ∀ j, (f j).length < 4294967296) {js : List Nat} (hj : ∀ j ∈ js, r.outs[j]? = some (f j)) {s : State}
    {more : List Response} (hs : s.responses = before ++ r :: more) :
    runLinesFrom before.length (js.map fun j => .pktEncode c (.out 1 j)) s =
      .next { s with responses := s.responses ++ js.map fun j => pktEncodeResponse crc32 c (f j) } := by
  induction js generalizing s more with
  | nil => simp [runLinesFrom_nil]
  | cons j js ih =>
    obtain ⟨hj, hjs⟩ := List.forall_mem_cons.mp hj
    have hdrop : s.responses.drop before.length = r :: more := by rw [hs, List.drop_left]
    have hop : (Line.pktEncode c (.out 1 j)).operation (s.responses.drop before.length) =
        some (.pktEncode c (f j)) := by
      rw [Line.operation, eval_out_one hdrop, hj]
      rfl
    rw [List.map_cons, runLinesFrom_cons (t := s.respond (pktEncodeResponse crc32 c (f j))) _ hop (hf j) rfl,
      ih hjs (more := more ++ [pktEncodeResponse crc32 c (f j)]) (by simp [hs])]
    simp [State.respond]

/-- RECV_PIECE issues its PKT_DECODE and goes on to feed the output of its response, if there is one (R102). -/
theorem runLines_recvPiece {f : Bytes} (hf : f.length < 4294967296) (s : State) :
    runLines (recvPiece 1 (.hex f)) s = runLinesFrom s.responses.length [.chunkFeed (.out 1 0)]
      (s.respond (pktDecodeResponse crc32 f)) :=
  runLinesFrom_cons _ rfl hf rfl

/-- The CHUNK_FEED line of RECV_PIECE, after this response to the program's first operation. -/
theorem operation_feed_out (s : State) (r : Response) :
    (Line.chunkFeed (.out 1 0)).operation ((s.respond r).responses.drop s.responses.length) =
      r.outs[0]?.map .chunkFeed := by
  rw [State.respond_responses, List.drop_left, Line.operation, eval_out_one rfl]

/-- Settles O52: CHUNK_ENCODE, then one PKT_ENCODE for each index. -/
theorem sendChunkedAnswersFrames : Obligations.SendChunkedAnswersFrames := by
  intro s c u d hd
  have henc := chunkEncodeResponse_eq crc32 u hd
  have hwf : (Instr.chunkEncode u d).WellFormed := lt_of_le_of_lt hd (by decide)
  have houts : ∀ j ∈ List.range (pieceCount d.length), (makeChunks crc32 u d)[j]? = some (chunkOf crc32 u d j) := by
    intro j hj
    simp [makeChunks_eq, List.mem_range.mp hj]
  refine ⟨makeChunks crc32 u d, henc, ?_⟩
  calc runLines (sendChunked 1 c u (.hex d) d.length) s
    _ = runLinesFrom s.responses.length
          ((List.range (pieceCount d.length)).map fun j => .pktEncode c (.out 1 j))
          (s.respond (.respond .ok (makeChunks crc32 u d))) :=
        runLinesFrom_cons _ rfl hwf (by rw [← henc]; rfl)
    _ = _ := runLinesFrom_pktEncode_outs c
          (fun j => (chunkOf_length_le crc32 u d j).trans_lt (by decide)) houts rfl
    _ = _ := by
        simp [makeChunks_eq, State.respond, Response.respond, Function.comp_def]

/-- Settles O53: the CHUNK_FEED line has an operand only where PKT_DECODE answered an output. -/
theorem recvPieceFeedsOnlyIntactFrames : Obligations.RecvPieceFeedsOnlyIntactFrames := by
  intro s f hf
  refine ⟨fun ⟨hl, hc⟩ => ⟨_, rfl, ?_⟩, fun hbad => ⟨_, rfl, ?_⟩⟩
  · have hdec := pktDecodeResponse_of_intact hl hc
    have hwf : (Instr.chunkFeed (framePayload f)).WellFormed :=
      lt_of_le_of_lt (List.length_take_le _ _) (by decide)
    obtain ⟨m, r, hfeed⟩ := exec_next (.chunkFeed (framePayload f)) (s.respond (pktDecodeResponse crc32 f))
    refine ⟨by rw [hdec], ?_⟩
    rw [runLines_recvPiece hf, runLinesFrom_cons [] ((operation_feed_out s _).trans (by rw [hdec]; rfl)) hwf hfeed]
    exact hfeed.symm
  · obtain ⟨e, hne, hdec⟩ := pktDecodeResponse_of_not_intact hbad
    refine ⟨by rw [hdec]; exact hne, ?_⟩
    have hop : (Line.chunkFeed (.out 1 0)).operation
        ((s.respond (pktDecodeResponse crc32 f)).responses.drop s.responses.length) = none := by
      rw [operation_feed_out, hdec]
      rfl
    rw [runLines_recvPiece hf, runLinesFrom_of_none [] (by rw [Line.assemble, hop]; rfl)]

end Sys2Proof.Machine
end

section
/-!
The reflected CRC register against the catalogue's form of it, and the CRC32 operation at the port: the statements of
40_crc32.md.
-/

namespace Sys2Proof.Machine

open Claims (IllegalWord requestBytes)

/-! ### Reversing the bits of a word -/

theorem reverse_xor {w : Nat} (x y : BitVec w) : (x ^^^ y).reverse = x.reverse ^^^ y.reverse := by
  ext i hi
  simp only [BitVec.getElem_reverse, BitVec.getElem_xor, BitVec.getMsbD_xor]

theorem reverse_shiftLeft {w : Nat} (x : BitVec w) (n : Nat) : (x <<< n).reverse = x.reverse >>> n := by
  ext i hi
  rw [BitVec.getElem_reverse, BitVec.getElem_ushiftRight, BitVec.getLsbD_reverse, BitVec.getMsbD_shiftLeft,
    Nat.add_comm]

/-- A byte at the top of a word is, reversed, the reversed byte at the bottom of it. -/
theorem reverse_topByte (b : Byte) : ((b.setWidth 32) <<< 24).reverse = b.reverse.setWidth 32 := by
  rw [reverse_shiftLeft]
  ext i hi
  simp [BitVec.getLsbD_reverse]

/-! ### The catalogue's register is the reflected register, reversed -/

theorem crcPoly_eq_reverse : crcPoly = (0x04C11DB7#32 : U32).reverse := by decide +kernel

/-- One turn of the catalogue's register. -/
def catalogueBit (poly c : U32) : U32 := if c.msb = true then (c <<< 1) ^^^ poly else c <<< 1

theorem catalogueByte_eq (poly c : U32) (refIn : Bool) (b : Byte) :
    catalogueByte poly refIn c b =
      (catalogueBit poly)^[8] (c ^^^ ((if refIn = true then b.reverse else b).setWidth 32 <<< 24)) := rfl

/-- The bit that falls out at the top of the catalogue's register falls out at the bottom of the reflected one. -/
theorem crcBit_reverse : Function.Semiconj BitVec.reverse (catalogueBit 0x04C11DB7#32) crcBit := by
  intro c
  have hout : c.reverse.getLsbD 0 = c.msb := BitVec.getLsbD_reverse
  unfold crcBit catalogueBit
  rw [hout, crcPoly_eq_reverse]
  split
  · rw [reverse_xor, reverse_shiftLeft]
  · exact reverse_shiftLeft c 1

theorem crcByte_reverse (c : U32) (b : Byte) :
    crcByte c.reverse b = (catalogueByte 0x04C11DB7#32 true c b).reverse := by
  have hin : (c ^^^ (b.reverse.setWidth 32 <<< 24)).reverse = c.reverse ^^^ b.setWidth 32 := by
    rw [reverse_xor, reverse_topByte, BitVec.reverse_reverse_eq]
  rw [catalogueByte_eq, if_pos rfl, (crcBit_reverse.iterate_right 8).eq, hin]
  rfl

theorem crcRun_reverse (c : U32) (b : Bytes) :
    crcRun c.reverse b = (b.foldl (catalogueByte 0x04C11DB7#32 true) c).reverse :=
  List.foldl_hom BitVec.reverse crcByte_reverse

/-- The reflected register started at the same all-ones value computes the catalogue's CRC (R122). -/
theorem crc32_eq_catalogueCrc (b : Bytes) :
    crc32 b = catalogueCrc 0x04C11DB7#32 0xFFFFFFFF#32 true true 0xFFFFFFFF#32 b := by
  have hinit : (0xFFFFFFFF#32 : U32) = (0xFFFFFFFF#32 : U32).reverse := by decide +kernel
  rw [crc32, catalogueCrc, if_pos rfl, ← crcRun_reverse, ← hinit]

/-! ### Check values -/

theorem crc32_nil : crc32 [] = 0#32 := by decide

/-- The check value of the catalogue: the CRC of ascii 123456789 (R122). -/
theorem crc32_check :
    crc32 [0x31, 0x32, 0x33, 0x34, 0x35, 0x36, 0x37, 0x38, 0x39] = 0xCBF43926#32 := by decide +kernel

theorem crc32_fourOnes : crc32 [0xff, 0xff, 0xff, 0xff] = 0xFFFFFFFF#32 := by decide +kernel

/-! ### The CRC32 operation -/

/-- CRC32 has one response and writes no state (R126). -/
theorem exec_crc32 (x : Bytes) (s : State) :
    exec (.crc32 x) s = .next (s.respond ⟨.ok, 0, [put32 (crc32 x).toNat]⟩) := rfl

/-- A request whose word is illegal is answered ERR_BADOP with nothing changed (R98, R226). -/
theorem step_of_illegalWord {s : State} {q : Nat} {x : Bytes} {rest : List HostEvent} (hq : q < 4294967296)
    (hx : x.length < 4294967296) (hs : s.script = .request (requestBytes q x) :: rest) (hill : IllegalWord q) :
    step s = .next ((s.setScript rest).respond ⟨.errBadop, 0, []⟩) :=
  (requestWordsAreCheckedFirst s q x rest hq hx hs).1 hill

/-- A request whose word has the fields of an operation runs it on the request's operand (R96, R97). -/
theorem step_of_legalWord {s : State} {q : Nat} {i : Instr} {rest : List HostEvent} (hq : q < 4294967296)
    (hi : i.WellFormed) (hs : s.script = .request (requestBytes q i.operand) :: rest) (hrsvd : rsvdField q = 0)
    (hop : i.op = opField q) (harg : i.arg8.toNat = argField q) : step s = exec i (s.setScript rest) :=
  step_of_request_ok hs ((decode_request hq hi).trans (decodeWord_eq_ok.mpr ⟨hrsvd, hop, harg, rfl⟩))

/-! ### The statements -/

/-- Settles O21: the register of each form is the other's, reversed. -/
theorem crc32HasCatalogueParameters : Obligations.Crc32HasCatalogueParameters := by
  unfold Obligations.Crc32HasCatalogueParameters
  exact ⟨crc32_eq_catalogueCrc, rfl, crcPoly_eq_reverse, crc32_check, crc32_nil⟩

/-- Settles O25, by the fields of the request word and the check values. -/
theorem crc32OperationAnswersCrc : Obligations.Crc32OperationAnswersCrc := by
  refine ⟨exec_crc32, fun s q x rest hq hx hs hop => ⟨fun hbad => ?_, fun ⟨harg, hrsvd⟩ => ?_⟩, ?_, ?_, ?_⟩
  · refine step_of_illegalWord hq hx hs ?_
    obtain harg | hrsvd := hbad
    · exact .inr (.inr ⟨by simp [hop], harg⟩)
    · exact .inl hrsvd
  · exact step_of_legalWord (i := .crc32 x) hq hx hs hrsvd hop.symm harg.symm
  · rw [crc32_nil]
    decide
  · rw [crc32_fourOnes]
    decide
  · rw [crc32_check]
    decide

end Sys2Proof.Machine
end

section
/-!
How the CRC sees one changed byte, what makes a frame intact, and the packet operations as exec runs them: the
statements of 41_packet_codec.md.
-/

namespace Sys2Proof.Machine

open Claims (Stateless flipBit)

/-! ### The CRC register is one-to-one -/

/-- The bit that falls out comes back at the top, where the polynomial has a 1 and no bit moves in. -/
theorem crcBit_getLsbD_top (c : U32) : (crcBit c).getLsbD 31 = c.getLsbD 0 := by
  have hpoly : crcPoly.getLsbD 31 = true := by decide
  have hin : c.getLsbD (31 + 1) = false := BitVec.getLsbD_of_ge c _ le_rfl
  rw [crcBit_getLsbD c (by omega), hpoly, hin, Bool.and_true, Bool.false_xor]

theorem crcBit_injective : Function.Injective crcBit := by
  intro c d h
  have hbit : ∀ i, (crcBit c).getLsbD i = (crcBit d).getLsbD i := fun i => by rw [h]
  have hlow : c.getLsbD 0 = d.getLsbD 0 := by
    simpa only [crcBit_getLsbD_top] using hbit 31
  apply BitVec.eq_of_getLsbD_eq
  rintro (_ | i) hi
  · exact hlow
  · have hnext := hbit i
    rw [crcBit_getLsbD c (by omega), crcBit_getLsbD d (by omega), hlow] at hnext
    exact Bool.xor_left_inj.mp hnext

/-- The register after a byte tells what the byte and the register XORed to. -/
theorem crcByte_eq_iff {c d : U32} {a b : Byte} :
    crcByte c a = crcByte d b ↔ c ^^^ a.setWidth 32 = d ^^^ b.setWidth 32 :=
  (crcBit_injective.iterate 8).eq_iff

theorem crcByte_left_injective (b : Byte) : Function.Injective fun c => crcByte c b :=
  fun _ _ h => (BitVec.xor_left_inj _).mp (crcByte_eq_iff.mp h)

theorem crcByte_right_injective (c : U32) : Function.Injective (crcByte c) := by
  intro a b h
  have hw : a.setWidth 32 = b.setWidth 32 := (BitVec.xor_right_inj _).mp (crcByte_eq_iff.mp h)
  simpa using congrArg (BitVec.setWidth 8) hw

theorem crcRun_injective (x : Bytes) : Function.Injective fun c => crcRun c x := by
  induction x with
  | nil => exact fun _ _ h => h
  | cons b x ih => exact ih.comp (crcByte_left_injective b)

/-! ### One changed byte -/

theorem crcRun_set_ne (c : U32) {b : Bytes} {i : Nat} (hi : i < b.length) {v : Byte} (hv : v ≠ byteAt b i) :
    crcRun c (b.set i v) ≠ crcRun c b := by
  induction b generalizing c i with
  | nil => exact absurd hi (Nat.not_lt_zero i)
  | cons a b ih =>
    cases i with
    | zero => exact fun h => hv (crcByte_right_injective c (crcRun_injective b h))
    | succ i => exact ih (crcByte c a) (Nat.lt_of_succ_lt_succ hi) hv

/-- Changing one byte in any of its bits changes the CRC. -/
theorem crc32_xorByte_ne {b : Bytes} {i : Nat} (hi : i < b.length) {m : Byte} (hm : m ≠ 0) :
    crc32 (xorByte b i m) ≠ crc32 b := by
  have hv : byteAt b i ^^^ m ≠ byteAt b i := by simpa using hm
  exact fun h => crcRun_set_ne _ hi hv ((BitVec.xor_left_inj _).mp h)

/-- The mask that flips bit n of a byte string flips a bit of its byte: it is never empty. -/
theorem oneBit_ne_zero (n : Nat) : (1#8 <<< (n % 8) : Byte) ≠ 0 := by
  have hmask : ∀ k : Fin 8, (1#8 <<< k.val : Byte) ≠ 0 := by decide
  exact hmask ⟨n % 8, Nat.mod_lt n (by decide)⟩

@[simp] theorem xorByte_length (b : Bytes) (i : Nat) (m : Byte) : (xorByte b i m).length = b.length :=
  List.length_set

theorem byteAt_xorByte_of_ne (b : Bytes) {i j : Nat} (h : i ≠ j) (m : Byte) :
    byteAt (xorByte b i m) j = byteAt b j := by
  simp [byteAt, xorByte, List.getElem?_set_ne h]

/-- A change before a little-endian word does not change it. -/
theorem le32_xorByte_of_lt (b : Bytes) {i j : Nat} (h : i < j) (m : Byte) :
    le32 (xorByte b i m) j = le32 b j := by
  simp only [le32, byteAt_xorByte_of_ne b (show i ≠ j by omega), byteAt_xorByte_of_ne b (show i ≠ j + 1 by omega),
    byteAt_xorByte_of_ne b (show i ≠ j + 2 by omega), byteAt_xorByte_of_ne b (show i ≠ j + 3 by omega)]

theorem take_xorByte_of_lt (b : Bytes) {i n : Nat} (h : i < n) (m : Byte) :
    (xorByte b i m).take n = xorByte (b.take n) i m := by
  have hbyte : byteAt (b.take n) i = byteAt b i := by simp [byteAt, List.getElem?_take_of_lt h]
  rw [xorByte, xorByte, hbyte, List.take_set]

/-! ### Intact frames -/

theorem frameSpan_eq_take (f : Bytes) : frameSpan f = f.take 252 := slice_zero f 252

/-- An intact frame is determined by its first 252 bytes (R80, R81). -/
theorem eq_of_intact {crc : Config.CrcFn} {f : Bytes} (hl : f.length = 256) (hf : Intact crc f) :
    f = frameSpan f ++ put32 (crc (frameSpan f)).toNat := by
  have hfield : put32 (frameCrc f) = slice f 252 4 := put32_le32 (i := 252) hl.ge
  have hrest : slice f 252 4 = f.drop 252 := List.take_of_length_le (by simp [hl])
  rw [← hf, hfield, hrest, frameSpan_eq_take, List.take_append_drop]

/-- A change of one byte, wherever it lies, makes an intact frame corrupt: before the CRC field it changes the CRC,
and in the field it changes only the field. -/
theorem not_intact_xorByte {f : Bytes} (hl : f.length = 256) (hf : Intact crc32 f) {i : Nat} (hi : i < 256)
    {m : Byte} (hm : m ≠ 0) : ¬ Intact crc32 (xorByte f i m) := by
  intro hg
  rcases Nat.lt_or_ge i 252 with hspan | hfield
  · have hcrc : frameCrc (xorByte f i m) = frameCrc f := le32_xorByte_of_lt f hspan m
    have hcover : frameSpan (xorByte f i m) = xorByte (frameSpan f) i m := by
      rw [frameSpan_eq_take, frameSpan_eq_take, take_xorByte_of_lt f hspan]
    rw [Intact, hcrc, hf, hcover] at hg
    exact crc32_xorByte_ne (by simp [frameSpan, hl]; omega) hm (BitVec.eq_of_toNat_eq hg.symm)
  · have hcover : frameSpan (xorByte f i m) = frameSpan f := by
      rw [frameSpan_eq_take, frameSpan_eq_take]
      exact List.take_set_of_le hfield
    have hsame : xorByte f i m = f := by
      rw [eq_of_intact (by simpa using hl) hg, hcover, ← eq_of_intact hl hf]
    exact crc32_xorByte_ne (by omega) hm (congrArg crc32 hsame)

theorem makeFrame_length (crc : Config.CrcFn) (cmd : Byte) {x : Bytes} (h : x.length ≤ 251) :
    (makeFrame crc cmd x).length = 256 := by
  rw [makeFrame_eq, List.length_append, frameBody_length cmd h, put32_length]

/-! ### The packet operations -/

theorem exec_pktEncode (cmd : Byte) (x : Bytes) (s : State) :
    exec (.pktEncode cmd x) s = .next (s.respond (pktEncodeResponse crc32 cmd x)) := rfl

theorem exec_pktDecode (x : Bytes) (s : State) :
    exec (.pktDecode x) s = .next (s.respond (pktDecodeResponse crc32 x)) := rfl

theorem pktEncodeResponse_of_long (crc : Config.CrcFn) (cmd : Byte) {x : Bytes} (h : 251 < x.length) :
    pktEncodeResponse crc cmd x = .raise .errLength := by
  obtain ⟨-, e⟩ | ⟨hshort, -⟩ := pktEncodeResponse_cases crc cmd x
  · exact e
  · omega

theorem pktDecodeResponse_of_length_ne (crc : Config.CrcFn) {x : Bytes} (h : x.length ≠ 256) :
    pktDecodeResponse crc x = .raise .errLength := by
  obtain ⟨-, e⟩ | ⟨hl, -⟩ | ⟨hl, -⟩ := pktDecodeResponse_cases crc x
  · exact e
  · exact absurd hl h
  · exact absurd hl h

/-- A frame of the right length that is not intact is answered ERR_INTEGRITY (R147). -/
theorem pktDecodeResponse_of_corrupt {crc : Config.CrcFn} {x : Bytes} (hl : x.length = 256) (hc : ¬ Intact crc x) :
    pktDecodeResponse crc x = .raise .errIntegrity := by
  obtain ⟨h, -⟩ | ⟨-, -, e⟩ | ⟨-, h, -⟩ := pktDecodeResponse_cases crc x
  · exact absurd hl h
  · exact e
  · exact absurd h hc

/-- An operation that does not use the reassembler gives a response fixed by its request, and writes nothing else
(R140). -/
theorem exec_of_stateless {i : Instr} (h : Stateless i) : ∃ r, ∀ s : State, exec i s = .next (s.respond r) := by
  cases i with
  | crc32 x => exact ⟨_, exec_crc32 x⟩
  | pktEncode cmd x => exact ⟨_, exec_pktEncode cmd x⟩
  | pktDecode x => exact ⟨_, exec_pktDecode x⟩
  | chunkEncode sub x => exact ⟨chunkEncodeResponse crc32 sub x, fun _ => rfl⟩
  | chunkFeed x => exact h.elim
  | reasmClear x => exact h.elim

/-! ### The statements -/

/-- Settles O29: the encoder's frame is intact and holds the padded payload. -/
theorem frameRoundTrip : Obligations.FrameRoundTrip := by
  intro crc cmd x hx
  refine ⟨makeFrame crc cmd x, pktEncodeResponse_eq crc cmd hx, ?_⟩
  have hcmd : frameCmd (makeFrame crc cmd x) = cmd := rfl
  rw [pktDecodeResponse_of_intact (makeFrame_length crc cmd hx) (makeFrame_intact crc cmd hx), hcmd,
    framePayload_makeFrame crc cmd hx]

/-- Settles O30: a flipped bit is a changed byte, which the CRC detects wherever it lies. -/
theorem singleBitFlipBreaksFrame : Obligations.SingleBitFlipBreaksFrame := by
  intro cmd x n hx hn
  refine ⟨makeFrame crc32 cmd x, pktEncodeResponse_eq crc32 cmd hx, fun s => ?_⟩
  have hl := makeFrame_length crc32 cmd hx
  have hbad : ¬ Intact crc32 (flipBit (makeFrame crc32 cmd x) n) :=
    not_intact_xorByte hl (makeFrame_intact crc32 cmd hx) (by omega) (oneBit_ne_zero n)
  rw [exec_pktDecode, pktDecodeResponse_of_corrupt (by simpa using hl) hbad]
  rfl

/-- Settles O32: a later operation reads only the reassembler and the capacity, which a response leaves alone. -/
theorem statelessOperationsDisturbNothing : Obligations.StatelessOperationsDisturbNothing := by
  intro i hi
  obtain ⟨r, hr⟩ := exec_of_stateless hi
  exact ⟨r, fun s => ⟨hr s, fun j => ⟨_, _, exec_answer j s, exec_answer j (s.respond r)⟩⟩⟩

/-- Settles O26, by the two lengths of a payload. -/
theorem pktEncodeAnswersFrame : Obligations.PktEncodeAnswersFrame := by
  intro cmd x s
  constructor
  · rintro hx h rfl
    rw [exec_pktEncode, pktEncodeResponse_eq crc32 cmd hx]
    rfl
  · intro hx
    rw [exec_pktEncode, pktEncodeResponse_of_long crc32 cmd hx]
    rfl

/-- Settles O28, by the three things the decoder can find. -/
theorem pktDecodeAnswersPayload : Obligations.PktDecodeAnswersPayload := by
  intro x s
  rw [exec_pktDecode]
  refine ⟨fun hl => ?_, fun hl hc => ?_, fun hl hc => ?_⟩
  · rw [pktDecodeResponse_of_length_ne crc32 hl]
    rfl
  · rw [pktDecodeResponse_of_corrupt hl hc]
    rfl
  · rw [pktDecodeResponse_of_intact hl hc]
    rfl

end Sys2Proof.Machine
end

section
/-!
What feeding one chunk does to the reassembler, said once in the words of the statements, and the statements of
42_chunk_codec.md about single operations and about the invariant of R33.
-/

namespace Sys2Proof.Machine

open Claims

/-! ### Feeding one chunk -/

theorem exec_chunkFeed (x : Bytes) (s : State) :
    exec (.chunkFeed x) s =
      .next ((s.setReasm (s.reasm.feed crc32 s.cap x).1).respond (s.reasm.feed crc32 s.cap x).2) := rfl

/-- What a first chunk starts from (R183). -/
theorem Reassembler.before_of_idle {m : Reassembler} (x : Bytes) (hm : m.phase = .idle) :
    accBefore m = [] ∧ countBefore m = 0 ∧ expectedOf m x = le16 x 1 :=
  ⟨if_pos hm, if_pos hm, if_pos hm⟩

/-- What a later chunk goes on from (R194). -/
theorem Reassembler.before_of_accum {m : Reassembler} (x : Bytes) (hm : m.phase = .accum) :
    accBefore m = m.acc ∧ countBefore m = m.received.toNat ∧ expectedOf m x = m.expected.toNat :=
  have hne : ¬ m.phase = .idle := by simp [hm]
  ⟨if_neg hne, if_neg hne, if_neg hne⟩

/-- In either phase a chunk's piece is taken into the accumulation that the statements name by what it was before
(R183, R194). -/
theorem Reassembler.start_eq_underWay (m : Reassembler) (x : Bytes) :
    m.start (chunkTotal x) = underWay (expectedOf m x) (countBefore m) (accBefore m) := by
  cases hm : m.phase with
  | idle =>
    obtain ⟨ha, hc, he⟩ := before_of_idle x hm
    rw [start_idle _ hm, ha, hc, he]
    rfl
  | accum =>
    obtain ⟨ha, hc, he⟩ := before_of_accum x hm
    rw [start_accum _ hm, ha, hc, he, underWay, BitVec.ofNat_toNat, BitVec.ofNat_toNat]
    simp [← hm]

theorem expectedOf_lt (m : Reassembler) (x : Bytes) : expectedOf m x < 65536 := by
  unfold expectedOf
  split
  · exact le16_lt x 1
  · exact m.expected.isLt

theorem countBefore_lt (m : Reassembler) : countBefore m < 65536 := by
  unfold countBefore
  split
  · decide
  · exact m.received.isLt

/-- Taking a piece, with the counts as naturals (R184, R187, R15). -/
theorem Reassembler.take_underWay (crc : Config.CrcFn) (cap : Nat) {n k : Nat} (a p : Bytes) (hn : n < 65536)
    (hk : k < 65536) :
    (underWay n k a).take crc cap p =
      if cap < a.length + p.length then (.fresh, .raise .errOverflow)
      else if k + 1 < n then (underWay n (k + 1) (a ++ p), .respond .incomplete [])
      else (.fresh, completeResponse crc (a ++ p)) := by
  have hn' : (BitVec.ofNat 16 n).toNat = n := Nat.mod_eq_of_lt hn
  have hk' : (BitVec.ofNat 16 k).toNat = k := Nat.mod_eq_of_lt hk
  have hsucc : underWay n (k + 1) (a ++ p) = ⟨.accum, BitVec.ofNat 16 n, BitVec.ofNat 16 k + 1, a ++ p⟩ :=
    congrArg (Reassembler.mk .accum _ · _) (BitVec.ofNat_add k 1)
  rw [take, hn', hk', hsucc]
  rfl

theorem Reassembler.feed_of_long (crc : Config.CrcFn) (cap : Nat) (m : Reassembler) {x : Bytes}
    (hl : 251 < x.length) : m.feed crc cap x = (.fresh, .raise .errLength) :=
  if_pos hl

/-- A chunk payload in the length range is refused for each of the three causes of R182. -/
theorem Reassembler.feed_of_malformed (crc : Config.CrcFn) (cap : Nat) {m : Reassembler} {x : Bytes}
    (hl : x.length ≤ 251)
    (hbad : x.length < 7 ∨ x.length < 7 + chunkLen x ∨ (m.phase = .idle ∧ chunkTotal x = 0)) :
    m.feed crc cap x = (.fresh, .raise .errMalformed) := by
  obtain ⟨h, -⟩ | ⟨-, -, e⟩ | ⟨-, hp, ht, -⟩ := m.feed_cases crc cap x
  · omega
  · exact e
  · rcases hbad with h | h | h
    · omega
    · omega
    · exact absurd h ht

/-- A chunk that holds its header and its piece is refused only for a first count of 0 (R182). -/
theorem Reassembler.feed_of_fits (crc : Config.CrcFn) (cap : Nat) (m : Reassembler) {x : Bytes} (hx : FitsFeed x) :
    m.feed crc cap x =
      if m.phase = .idle ∧ chunkTotal x = 0 then (.fresh, .raise .errMalformed)
      else (m.start (chunkTotal x)).take crc cap (chunkPiece x) := by
  obtain ⟨hl, -, hp⟩ := hx
  by_cases hzero : m.phase = .idle ∧ chunkTotal x = 0
  · rw [if_pos hzero, feed_of_malformed crc cap hl (.inr (.inr hzero))]
  · rw [if_neg hzero]
    exact feed_accepted crc cap hl hp fun hphase => Nat.pos_of_ne_zero fun h => hzero ⟨hphase, h⟩

/-- Of a chunk that holds its header and its piece nothing else is read than the piece and, in IDLE, the count
(R181). -/
theorem Reassembler.feed_congr (crc : Config.CrcFn) (cap : Nat) {m : Reassembler} {x y : Bytes} (hx : FitsFeed x)
    (hy : FitsFeed y) (hpiece : chunkPiece x = chunkPiece y) (ht : m.phase = .idle → chunkTotal x = chunkTotal y) :
    m.feed crc cap x = m.feed crc cap y := by
  rw [feed_of_fits crc cap m hx, feed_of_fits crc cap m hy, hpiece]
  cases hphase : m.phase with
  | idle => rw [ht hphase]
  | accum => simp [start_accum _ hphase]

/-- What an accepted chunk does, in either phase (R184 to R191). -/
theorem Reassembler.feed_of_accepts (crc : Config.CrcFn) (cap : Nat) {m : Reassembler} {x : Bytes}
    (hx : Accepts m x) :
    m.feed crc cap x =
      if cap < (accBefore m).length + le16 x 5 then (.fresh, .raise .errOverflow)
      else if countBefore m + 1 < expectedOf m x then
        (underWay (expectedOf m x) (countBefore m + 1) (accAfter m x), .respond .incomplete [])
      else (.fresh, completeResponse crc (accAfter m x)) := by
  obtain ⟨hl, -, hp, ht⟩ := hx
  calc m.feed crc cap x
    _ = (m.start (chunkTotal x)).take crc cap (chunkPiece x) := feed_accepted crc cap hl hp ht
    _ = _ := by
      rw [start_eq_underWay, take_underWay crc cap _ _ (expectedOf_lt m x) (countBefore_lt m), chunkPiece_length hp]
      rfl

/-- The check of a completed accumulation in the words of the statements (R189). -/
theorem completeResponse_crc32 (a : Bytes) :
    completeResponse crc32 a =
      if EndsInCrc a then .respond .ok [slice a 0 (a.length - 4)] else .raise .errIntegrity := by
  simp only [completeResponse_eq_ite, EndsInCrc, slice_zero]

/-! ### The invariant -/

/-- The bound on the accumulation is all of R33 that taking a piece needs. -/
theorem Reassembler.take_inv (crc : Config.CrcFn) (cap : Nat) {m : Reassembler} {p : Bytes}
    (hm : m.acc.length ≤ m.received.toNat * 244) (hp : p.length ≤ 244) (hphase : m.phase = .accum) :
    (m.take crc cap p).1.Inv cap := by
  obtain ⟨-, e⟩ | ⟨hcap, hlt, e⟩ | ⟨-, -, e⟩ := m.take_cases crc cap p
  · rw [e]
    exact fresh_inv cap
  · have hexp : m.expected.toNat < 65536 := m.expected.isLt
    have hcount : (m.received + 1).toNat = m.received.toNat + 1 := by bv_omega
    rw [e]
    refine ⟨fun hidle => absurd (hidle.symm.trans hphase) nofun, fun _ => ?_⟩
    simp only [hcount, List.length_append, Config.maxPieces, Config.maxPieceField]
    omega
  · rw [e]
    exact fresh_inv cap

theorem Reassembler.feed_inv (crc : Config.CrcFn) {cap : Nat} {m : Reassembler} (x : Bytes) (hm : m.Inv cap) :
    (m.feed crc cap x).1.Inv cap := by
  obtain ⟨-, e⟩ | ⟨-, -, e⟩ | ⟨hl, hp, -, e⟩ := m.feed_cases crc cap x
  · rw [e]
    exact fresh_inv cap
  · rw [e]
    exact fresh_inv cap
  · have hpiece : (chunkPiece x).length ≤ 244 := by
      rw [chunkPiece_length hp]
      omega
    rw [e]
    obtain ⟨-, haccum⟩ := hm
    cases hphase : m.phase with
    | idle =>
      rw [start_idle _ hphase]
      exact take_inv crc cap (Nat.zero_le _) hpiece rfl
    | accum =>
      obtain ⟨-, -, -, hacc, -⟩ := haccum hphase
      rw [start_accum _ hphase]
      exact take_inv crc cap hacc hpiece hphase

theorem Reassembler.clear_inv {cap : Nat} {m : Reassembler} (x : Bytes) (hm : m.Inv cap) : (m.clear x).1.Inv cap := by
  unfold clear
  split
  · exact hm
  · exact fresh_inv cap

/-- Every operation keeps the invariant (R33). -/
theorem answer_inv (crc : Config.CrcFn) {cap : Nat} {m : Reassembler} (i : Instr) (hm : m.Inv cap) :
    (answer crc cap m i).1.Inv cap := by
  cases i with
  | chunkFeed x => exact Reassembler.feed_inv crc x hm
  | reasmClear x => exact Reassembler.clear_inv x hm
  | crc32 _ => exact hm
  | pktEncode _ _ => exact hm
  | pktDecode _ => exact hm
  | chunkEncode _ _ => exact hm

/-- Settles O12, by the four things a step can have done. -/
theorem stepKeepsReassemblerInvariant : Obligations.StepKeepsReassemblerInvariant := by
  intro s t hinv h
  obtain ⟨-, rfl⟩ | ⟨bs, rest, i, -, -, hx⟩ | ⟨bs, rest, e, -, -, -, rfl⟩ | ⟨ev, rest, -, -, rfl⟩ := step_cases h
  · exact hinv
  · rw [exec_answer] at hx
    cases hx
    exact answer_inv crc32 i hinv
  · exact hinv
  · exact Reassembler.fresh_inv s.cap

/-! ### CHUNK_FEED on one chunk -/

/-- Settles O40: the capacity is checked before the piece is appended. -/
theorem pieceBeyondCapacityOverflows : Obligations.PieceBeyondCapacityOverflows := by
  intro x s hx hcap
  rw [exec_chunkFeed, Reassembler.feed_of_accepts crc32 s.cap hx, if_pos hcap]
  rfl

/-- Settles O38: the piece fits, and the count is not reached. -/
theorem pieceBeforeLastIsIncomplete : Obligations.PieceBeforeLastIsIncomplete := by
  intro x s ⟨hx, hcap⟩ hlt
  rw [exec_chunkFeed, Reassembler.feed_of_accepts crc32 s.cap hx, if_neg (not_lt.mpr hcap), if_pos hlt]
  rfl

/-- Once its piece is taken, a chunk that reaches the count completes the transfer, whatever the check says (R187 to
R190). -/
theorem exec_chunkFeed_complete {x : Bytes} {s : State} (hx : Taken s.cap s.reasm x)
    (hlast : expectedOf s.reasm x ≤ countBefore s.reasm + 1) :
    exec (.chunkFeed x) s =
      .next ((s.setReasm .fresh).respond (completeResponse crc32 (accAfter s.reasm x))) := by
  obtain ⟨hx, hcap⟩ := hx
  rw [exec_chunkFeed, Reassembler.feed_of_accepts crc32 s.cap hx, if_neg (not_lt.mpr hcap), if_neg (not_lt.mpr hlast)]

/-- Settles O39, by the check of the completed accumulation. -/
theorem lastChunkCompletesTransfer : Obligations.LastChunkCompletesTransfer := by
  intro x s hx hlast
  rw [exec_chunkFeed_complete hx hlast.ge, completeResponse_crc32]
  refine ⟨fun hcrc => ?_, fun hcrc => ?_⟩
  · rw [if_pos hcrc]
    rfl
  · rw [if_neg hcrc]
    rfl

/-- Settles O37: an accepted chunk in IDLE, where nothing is counted or accumulated yet. -/
theorem firstChunkStartsAccumulation : Obligations.FirstChunkStartsAccumulation := by
  intro x s hphase hl h7 hp ht hcap
  obtain ⟨ha, hc, he⟩ := Reassembler.before_of_idle x hphase
  have hx : Taken s.cap s.reasm x := ⟨⟨hl, h7, hp, fun _ => by omega⟩, by rwa [ha, List.length_nil, Nat.zero_add]⟩
  rw [pieceBeforeLastIsIncomplete x s hx (by omega), accAfter, ha, hc, he]
  rfl

/-- Settles O44: the first time the chunk opens the accumulation, the second time it is one piece more of it. -/
theorem repeatedChunkIsTakenAgain : Obligations.RepeatedChunkIsTakenAgain := by
  intro x s hphase hl h7 hp ht hcap
  have hfirst := firstChunkStartsAccumulation x s hphase hl h7 hp (by omega) (by omega)
  refine ⟨_, _, hfirst, pieceBeforeLastIsIncomplete x _ ⟨⟨hl, h7, hp, nofun⟩, ?_⟩ ?_, rfl, rfl⟩
  · show (slice x 7 (le16 x 5)).length + le16 x 5 ≤ s.cap
    rw [slice_length]
    omega
  · show 1 + 1 < (BitVec.ofNat 16 (le16 x 1)).toNat
    rw [BitVec.toNat_ofNat, Nat.mod_eq_of_lt (le16_lt x 1)]
    omega

theorem accepts_of_not_refused {m : Reassembler} {x : Bytes} (hl : ¬ 251 < x.length) (h7 : ¬ x.length < 7)
    (hp : ¬ x.length < 7 + le16 x 5) (ht : ¬ (m.phase = .idle ∧ le16 x 1 = 0)) : Accepts m x :=
  ⟨not_lt.mp hl, not_lt.mp h7, not_lt.mp hp, fun hphase => Nat.pos_of_ne_zero fun h => ht ⟨hphase, h⟩⟩

/-- Settles O36: the refusals, then what an accepted chunk does. -/
theorem chunkFeedFollowsRule : Obligations.ChunkFeedFollowsRule := by
  intro x s
  split_ifs with hl h7 hp ht hcap hlt hcrc
  · rw [exec_chunkFeed, Reassembler.feed_of_long crc32 s.cap _ hl]
    rfl
  · rw [exec_chunkFeed, Reassembler.feed_of_malformed crc32 s.cap (not_lt.mp hl) (.inl h7)]
    rfl
  · rw [exec_chunkFeed, Reassembler.feed_of_malformed crc32 s.cap (not_lt.mp hl) (.inr (.inl hp))]
    rfl
  · rw [exec_chunkFeed, Reassembler.feed_of_malformed crc32 s.cap (not_lt.mp hl) (.inr (.inr ht))]
    rfl
  · exact pieceBeyondCapacityOverflows x s (accepts_of_not_refused hl h7 hp ht) hcap
  · exact pieceBeforeLastIsIncomplete x s ⟨accepts_of_not_refused hl h7 hp ht, not_lt.mp hcap⟩ hlt
  · rw [exec_chunkFeed_complete ⟨accepts_of_not_refused hl h7 hp ht, not_lt.mp hcap⟩ (not_lt.mp hlt),
      completeResponse_crc32, if_pos hcrc]
    rfl
  · rw [exec_chunkFeed_complete ⟨accepts_of_not_refused hl h7 hp ht, not_lt.mp hcap⟩ (not_lt.mp hlt),
      completeResponse_crc32, if_neg hcrc]
    rfl

/-- Settles O43: piece and first count are all that is read. -/
theorem feedIgnoresOtherFields : Obligations.FeedIgnoresOtherFields := by
  intro x y s hlx hly h7x h7y hpx hpy _ hpiece ht
  rw [exec_chunkFeed, exec_chunkFeed,
    Reassembler.feed_congr crc32 s.cap ⟨hlx, h7x, hpx⟩ ⟨hly, h7y, hpy⟩ hpiece ht]

/-- Taking a piece answers an error only where it leaves the reassembler IDLE (R193). -/
theorem Reassembler.take_fst_of_error (crc : Config.CrcFn) (cap : Nat) {m : Reassembler} {p : Bytes}
    (h : (m.take crc cap p).2.status.isError = true) : (m.take crc cap p).1 = .fresh := by
  obtain ⟨-, e⟩ | ⟨-, -, e⟩ | ⟨-, -, e⟩ := m.take_cases crc cap p
  · rw [e]
  · rw [e] at h
    exact absurd h Bool.false_ne_true
  · rw [e]

theorem Reassembler.feed_fst_of_error (crc : Config.CrcFn) (cap : Nat) {m : Reassembler} {x : Bytes}
    (h : (m.feed crc cap x).2.status.isError = true) : (m.feed crc cap x).1 = .fresh := by
  obtain ⟨-, e⟩ | ⟨-, -, e⟩ | ⟨-, -, -, e⟩ := m.feed_cases crc cap x
  · rw [e]
  · rw [e]
  · rw [e] at h ⊢
    exact take_fst_of_error crc cap h

/-- Settles O42, by everything that feeding a chunk can do and, for ERR_BADOP, the check of the request word. -/
theorem feedErrorDiscardsAccumulation : Obligations.FeedErrorDiscardsAccumulation :=
  ⟨fun x s => ⟨_, _, exec_chunkFeed x s, Reassembler.feed_fst_of_error crc32 s.cap⟩,
    fun _ _ _ _ hq hx hs hill => step_of_illegalWord hq hx hs hill⟩

/-! ### REASM_CLEAR -/

theorem exec_reasmClear_of_nil {x : Bytes} (hx : x.length = 0) (s : State) :
    exec (.reasmClear x) s = .next ((s.setReasm .fresh).respond (.respond .ok [])) := by
  rw [exec, execReasmClear, Reassembler.clear, if_neg (not_not.mpr hx)]
  rfl

theorem exec_reasmClear_of_operand {x : Bytes} (hx : x.length ≠ 0) (s : State) :
    exec (.reasmClear x) s = .next (s.respond (.raise .errLength)) := by
  rw [exec, execReasmClear, Reassembler.clear, if_pos hx]
  rfl

/-- Settles O46: after the first REASM_CLEAR the reassembler is the one the second would write. -/
theorem reasmClearDiscardsAccumulation : Obligations.ReasmClearDiscardsAccumulation := by
  refine fun x s => ⟨fun hx => ⟨exec_reasmClear_of_nil hx s, fun t ht => ?_⟩, fun hx => exec_reasmClear_of_operand hx s⟩
  cases (exec_reasmClear_of_nil hx s).symm.trans ht
  exact exec_reasmClear_of_nil hx _

end Sys2Proof.Machine
end

section
/-!
The chunks the segmenter makes, how long each is, and the statement that they come back as the buffer when they are fed
in order.
-/

namespace Sys2Proof.Machine

open Claims

/-! ### The segmenter's chunks -/

theorem exec_chunkEncode (sub : Byte) (x : Bytes) (s : State) :
    exec (.chunkEncode sub x) s = .next (s.respond (chunkEncodeResponse crc32 sub x)) := rfl

theorem chunkEncodeResponse_of_long (crc : Config.CrcFn) (sub : Byte) {x : Bytes} (h : 15728396 < x.length) :
    chunkEncodeResponse crc sub x = .raise .errLength :=
  if_pos h

@[simp] theorem transferStream_length (crc : Config.CrcFn) (x : Bytes) :
    (transferStream crc x).length = x.length + 4 := by
  rw [transferStream, List.length_append, put32_length]

/-- The piece count is the one number of 240-byte pieces that reaches the end of the stream and is not more than it
needs (R171). -/
theorem pieceCount_eq {n len : Nat} (hlt : 240 * n < len + 4 + 240) (hle : len + 4 ≤ 240 * n) :
    n = pieceCount len := by
  simp only [pieceCount, ceilDiv, Config.crcLen, Config.pieceLen]
  omega

/-- Settles O33: the count and the pieces of the statement are those of the segmenter. -/
theorem chunkEncodeAnswersChunks : Obligations.ChunkEncodeAnswersChunks := by
  intro sub x s
  rw [exec_chunkEncode]
  constructor
  · intro hlong
    rw [chunkEncodeResponse_of_long crc32 sub hlong]
    rfl
  · rintro hx st n p rfl hlt hle hp
    have hpieces : p = streamPiece (transferStream crc32 x) :=
      funext fun j => by rw [hp, streamPiece, transferStream_length]; rfl
    refine ⟨by omega, by omega, ?_⟩
    rw [chunkEncodeResponse_eq crc32 sub hx, pieceCount_eq hlt hle, hpieces]
    rfl

theorem streamPiece_length (s : Bytes) (j : Nat) : (streamPiece s j).length = min 240 (s.length - 240 * j) := by
  rw [streamPiece_eq, List.length_take, List.length_drop]

/-- What the reassembler reads from a chunk of a transfer, whatever pad follows it (R86, R181). -/
theorem chunkOf_append_fields (crc : Config.CrcFn) (sub : Byte) {x : Bytes} (hx : x.length ≤ 15728396) {j : Nat}
    (hj : j < pieceCount x.length) (pad : Bytes) :
    chunkTotal (chunkOf crc sub x j ++ pad) = pieceCount x.length ∧
      chunkLen (chunkOf crc sub x j ++ pad) = (streamPiece (transferStream crc x) j).length ∧
      chunkPiece (chunkOf crc sub x j ++ pad) = streamPiece (transferStream crc x) j := by
  have hn := pieceCount_le hx
  have hp := streamPiece_length_le (transferStream crc x) j
  obtain ⟨-, htotal, -, hlen, hpiece⟩ :=
    makeChunk_fields sub (total := pieceCount x.length) (index := j) pad (by omega) (by omega)
      (p := streamPiece (transferStream crc x) j) (by omega)
  exact ⟨htotal, hlen, hpiece⟩

theorem makeChunks_getElem?_eq_some {crc : Config.CrcFn} {sub : Byte} {x : Bytes} {j : Nat} {c : Bytes} :
    (makeChunks crc sub x)[j]? = some c ↔ j < pieceCount x.length ∧ chunkOf crc sub x j = c := by
  rw [makeChunks_eq, List.getElem?_eq_some_iff]
  simp

theorem mem_makeChunks {crc : Config.CrcFn} {sub : Byte} {x c : Bytes} :
    c ∈ makeChunks crc sub x ↔ ∃ j < pieceCount x.length, chunkOf crc sub x j = c := by
  simp [makeChunks_eq]

/-- Settles O34: the length of piece j of the stream, in every chunk of the transfer. -/
theorem segmentLengths : Obligations.SegmentLengths := by
  intro crc sub x hx
  refine ⟨makeChunks crc sub x, chunkEncodeResponse_eq crc sub hx, makeChunks_length crc sub x, fun j c hc => ?_⟩
  obtain ⟨hj, rfl⟩ := makeChunks_getElem?_eq_some.mp hc
  have hlen : le16 (chunkOf crc sub x j) 5 = min 240 (x.length + 4 - 240 * j) := by
    obtain ⟨-, h, -⟩ := chunkOf_append_fields crc sub hx hj []
    rwa [List.append_nil, streamPiece_length, transferStream_length] at h
  have hchunk : (chunkOf crc sub x j).length = 7 + min 240 (x.length + 4 - 240 * j) := by
    rw [chunkOf, makeChunk_length, streamPiece_length, transferStream_length]
  rw [makeChunks_length, hlen, hchunk]
  have hcount : pieceCount x.length = (x.length + 4 + 239) / 240 := rfl
  rw [hcount] at hj ⊢
  refine ⟨rfl, by omega, by omega, fun hbefore => by omega, fun hlast => ?_⟩
  rw [← hlast, Nat.add_sub_cancel]
  omega

/-! ### A transfer fed by the machine -/

/-- A payload that carries a chunk: the chunk itself, or what PKT_DECODE returns of a frame it was put in. -/
abbrev CarriedAs (crc : Config.CrcFn) (c x : Bytes) : Prop :=
  x = c ∨ ∃ cmd f, pktEncodeResponse crc cmd c = ⟨.ok, 0, [f]⟩ ∧ pktDecodeResponse crc f = ⟨.ok, cmd, [x]⟩

/-- A carried chunk comes with nothing but pad bytes after it (R82, R147). -/
theorem CarriedAs.eq_append {crc : Config.CrcFn} {c x : Bytes} (h : CarriedAs crc c x) (hc : c.length ≤ 251) :
    ∃ pad, x = c ++ pad ∧ x.length ≤ 251 := by
  obtain rfl | ⟨cmd, f, henc, hdec⟩ := h
  · exact ⟨[], (List.append_nil x).symm, hc⟩
  · obtain rfl : makeFrame crc cmd c = f := by
      simpa using congrArg Response.outs ((pktEncodeResponse_eq crc cmd hc).symm.trans henc)
    have hpayload := pktDecodeResponse_of_intact (makeFrame_length crc cmd hc) (makeFrame_intact crc cmd hc)
    obtain rfl : framePayload (makeFrame crc cmd c) = x := by
      simpa using congrArg Response.outs (hpayload.symm.trans hdec)
    exact ⟨_, framePayload_makeFrame crc cmd hc, List.length_take_le _ _⟩

/-- The reassembler cannot tell the two payloads apart, in either phase (R181). -/
def SameToFeed (c x : Bytes) : Prop :=
  FitsFeed c ∧ FitsFeed x ∧ chunkPiece c = chunkPiece x ∧ chunkTotal c = chunkTotal x

theorem fitsFeed_chunkOf_append (crc : Config.CrcFn) (sub : Byte) {d : Bytes} (hd : d.length ≤ 15728396) {j : Nat}
    (hj : j < pieceCount d.length) {pad : Bytes} (hl : (chunkOf crc sub d j ++ pad).length ≤ 251) :
    FitsFeed (chunkOf crc sub d j ++ pad) := by
  obtain ⟨-, hlen, -⟩ := chunkOf_append_fields crc sub hd hj pad
  have hchunk : 7 + chunkLen (chunkOf crc sub d j ++ pad) ≤ (chunkOf crc sub d j ++ pad).length := by
    rw [hlen, List.length_append, chunkOf, makeChunk_length]
    exact Nat.le_add_right _ _
  exact ⟨hl, (Nat.le_add_right _ _).trans hchunk, hchunk⟩

/-- Every chunk of a transfer fits CHUNK_FEED and says how many there are (R171, R182). -/
theorem fitsFeed_of_mem_makeChunks {crc : Config.CrcFn} {sub : Byte} {d c : Bytes} (hd : d.length ≤ 15728396)
    (hc : c ∈ makeChunks crc sub d) : FitsFeed c ∧ chunkTotal c = pieceCount d.length := by
  obtain ⟨j, hj, rfl⟩ := mem_makeChunks.mp hc
  obtain ⟨-, htotal, -⟩ := chunkOf_fields crc sub hd hj
  have hfits := fitsFeed_chunkOf_append crc sub hd hj (pad := [])
  rw [List.append_nil] at hfits
  exact ⟨hfits ((chunkOf_length_le crc sub d j).trans (by decide)), htotal⟩

/-- A chunk of a transfer does the same however it is carried (R181, R147). -/
theorem CarriedAs.sameToFeed {crc : Config.CrcFn} {sub : Byte} {d c x : Bytes} (hd : d.length ≤ 15728396)
    (hc : c ∈ makeChunks crc sub d) (h : CarriedAs crc c x) : SameToFeed c x := by
  obtain ⟨hfits, -⟩ := fitsFeed_of_mem_makeChunks hd hc
  obtain ⟨j, hj, rfl⟩ := mem_makeChunks.mp hc
  obtain ⟨pad, rfl, hx⟩ := h.eq_append hfits.1
  obtain ⟨htotal, -, hpiece⟩ := chunkOf_append_fields crc sub hd hj pad
  obtain ⟨-, htotal', -, hpiece'⟩ := chunkOf_fields crc sub hd hj
  exact ⟨hfits, fitsFeed_chunkOf_append crc sub hd hj hx, hpiece'.trans hpiece.symm, htotal'.trans htotal.symm⟩

/-- Payloads the reassembler cannot tell from some chunks do as those chunks. -/
theorem feedAll_congr (crc : Config.CrcFn) (cap : Nat) {cs xs : List Bytes} (h : List.Forall₂ SameToFeed cs xs)
    (m : Reassembler) : feedAll crc cap m xs = feedAll crc cap m cs := by
  induction h generalizing m with
  | nil => rfl
  | cons hcx _ ih =>
    obtain ⟨hc, hx, hpiece, htotal⟩ := hcx
    rw [feedAll, feedAll, Reassembler.feed_congr crc cap hx hc hpiece.symm fun _ => htotal.symm, ih]

theorem fitsFeed_of_sameToFeed {cs xs : List Bytes} (h : List.Forall₂ SameToFeed cs xs) : ∀ x ∈ xs, FitsFeed x := by
  induction h with
  | nil => exact nofun
  | cons hcx _ ih =>
    obtain ⟨-, hx, -⟩ := hcx
    exact List.forall_mem_cons.mpr ⟨hx, ih⟩

/-- The stream of a buffer passes the check of a completed accumulation (R189). -/
theorem completeResponse_transferStream (crc : Config.CrcFn) (d : Bytes) :
    completeResponse crc (transferStream crc d) = .respond .ok [d] := by
  have hl : (transferStream crc d).length - 4 = d.length := by simp
  have hdata : (transferStream crc d).take d.length = d := List.take_left
  have hcrc : le32 (transferStream crc d) d.length = (crc d).toNat := by
    rw [transferStream, le32_append_right _ le_rfl, Nat.sub_self]
    exact le32_put32 [] (BitVec.isLt _)
  rw [completeResponse_eq_ite, hl, hdata, if_pos ⟨by simp, hcrc⟩]

/-- The chunks of a buffer fed in order from IDLE give the buffer back with the last of them (R171, R185). -/
theorem feedAll_makeChunks (crc : Config.CrcFn) {cap : Nat} {m : Reassembler} (sub : Byte) {d : Bytes}
    (hd : d.length ≤ 15728396) (hcap : d.length + 4 ≤ cap) (hm : m.phase = .idle) :
    feedAll crc cap m (makeChunks crc sub d) =
      (.fresh, List.replicate (pieceCount d.length - 1) (.respond .incomplete []) ++ [.respond .ok [d]]) := by
  have hmem : ∀ c ∈ makeChunks crc sub d, FitsFeed c ∧ chunkTotal c = pieceCount d.length := fun _ =>
    fitsFeed_of_mem_makeChunks hd
  have hpieces := piecesOf_makeChunks crc sub hd
  rw [← makeChunks_length crc sub d] at hmem ⊢
  cases hcs : makeChunks crc sub d with
  | nil => exact absurd (congrArg List.length hpieces) (by simp [hcs])
  | cons c cs =>
    rw [hcs] at hmem hpieces
    obtain ⟨hc, htotal⟩ := hmem c List.mem_cons_self
    have hfit : ([] : Bytes).length + (piecesOf (c :: cs)).length ≤ cap := by simpa [hpieces] using hcap
    rw [feedAll_idle_eq_feedAll_underWay crc cap cs hm hc (htotal ▸ Nat.succ_pos _),
      feedAll_underWay_of_eq crc cap (chunkTotal_lt c) (by rw [htotal, Nat.zero_add]) (fun y hy => (hmem y hy).1) hfit,
      hpieces, List.nil_append, completeResponse_transferStream]
    rfl

/-- A run of CHUNK_FEED requests feeds their operands in order, and gives the responses in order (R70, R185). -/
theorem run_feed_requests {xs : List Bytes} (hx : ∀ x ∈ xs, (Instr.chunkFeed x).WellFormed) {s : State}
    {rest : List HostEvent} (hs : s.script = xs.map (fun x => .request (encode (.chunkFeed x))) ++ rest) :
    Host.Core.run core xs.length s = .next
      { reasm := (feedAll crc32 s.cap s.reasm xs).1, cap := s.cap, script := rest,
        responses := s.responses ++ (feedAll crc32 s.cap s.reasm xs).2 } := by
  induction xs generalizing s with
  | nil =>
    obtain rfl : s.script = rest := hs
    simp [feedAll, Host.Core.run]
  | cons x xs ih =>
    obtain ⟨hx, hxs⟩ := List.forall_mem_cons.mp hx
    have hstep := (step_of_request_ok hs (decode_encode hx)).trans (exec_chunkFeed x _)
    rw [List.length_cons, core_run_succ hstep, ih hxs rfl]
    simp [feedAll]

/-- Settles O51: a carried chunk does as the chunk itself, and the chunks give the buffer back. -/
theorem chunkedTransferRoundTrip : Obligations.ChunkedTransferRoundTrip := by
  intro s d sub cs fed rest hd hcap hm henc hfed hs
  obtain rfl : makeChunks crc32 sub d = cs :=
    congrArg Response.outs ((chunkEncodeResponse_eq crc32 sub hd).symm.trans henc)
  have hlen : fed.length = pieceCount d.length := hfed.length_eq.symm.trans (makeChunks_length crc32 sub d)
  have hsame : List.Forall₂ SameToFeed (makeChunks crc32 sub d) fed :=
    ((List.forall₂_and_left _ _).mpr ⟨fun _ hc => hc, hfed⟩).imp fun _ _ ⟨hc, hx⟩ => CarriedAs.sameToFeed hd hc hx
  have hwf : ∀ x ∈ fed, (Instr.chunkFeed x).WellFormed := fun x hx =>
    (fitsFeed_of_sameToFeed hsame x hx).1.trans_lt (by decide)
  rw [run_feed_requests hwf hs, feedAll_congr crc32 s.cap hsame, feedAll_makeChunks crc32 sub hd hcap hm, hlen]
  rfl

end Sys2Proof.Machine
end

section
/-!
The status each operation answers, said once as the checks of its rule in order, and the statements of
60_exceptions.md: the causes of each error over all operations, and that no error stops the block.
-/

namespace Sys2Proof.Machine

open Claims

/-! ### The status of each operation -/

theorem pktEncodeResponse_status (crc : Config.CrcFn) (cmd : Byte) (x : Bytes) :
    (pktEncodeResponse crc cmd x).status = if 251 < x.length then .errLength else .ok :=
  apply_ite Response.status _ _ _

theorem chunkEncodeResponse_status (crc : Config.CrcFn) (sub : Byte) (x : Bytes) :
    (chunkEncodeResponse crc sub x).status = if 15728396 < x.length then .errLength else .ok :=
  apply_ite Response.status _ _ _

theorem Reassembler.clear_status (m : Reassembler) (x : Bytes) :
    (m.clear x).2.status = if x.length ≠ 0 then .errLength else .ok :=
  apply_ite (fun a : Reassembler × Response => a.2.status) _ _ _

/-- PKT_DECODE checks the length, then the CRC (R147). -/
theorem pktDecodeResponse_status (crc : Config.CrcFn) (x : Bytes) :
    (pktDecodeResponse crc x).status =
      if x.length ≠ 256 then .errLength else if Intact crc x then .ok else .errIntegrity := by
  by_cases hl : x.length = 256
  · by_cases hc : Intact crc x
    · rw [if_neg (not_not.mpr hl), if_pos hc, pktDecodeResponse_of_intact hl hc]
    · rw [if_neg (not_not.mpr hl), if_neg hc, pktDecodeResponse_of_corrupt hl hc, Response.raise_status]
  · rw [if_pos hl, pktDecodeResponse_of_length_ne crc hl, Response.raise_status]

/-- Within the length range a chunk is turned away for each of the three causes of R224. -/
theorem not_accepts_iff {m : Reassembler} {x : Bytes} (hl : x.length ≤ 251) :
    ¬ Accepts m x ↔ x.length < 7 ∨ x.length < 7 + le16 x 5 ∨ (m.phase = .idle ∧ le16 x 1 = 0) := by
  constructor
  · intro hx
    by_contra hbad
    simp only [not_or] at hbad
    obtain ⟨h7, hp, ht⟩ := hbad
    exact hx (accepts_of_not_refused (not_lt.mpr hl) h7 hp ht)
  · rintro hbad ⟨-, h7, hp, ht⟩
    rcases hbad with h | h | ⟨hphase, hzero⟩
    · omega
    · omega
    · exact absurd hzero (Nat.ne_of_gt (ht hphase))

/-- A chunk that is not accepted is too long or malformed; the length is checked first (R182, R228). -/
theorem Reassembler.feed_status_of_not_accepts {m : Reassembler} {x : Bytes} (cap : Nat) (hx : ¬ Accepts m x) :
    (m.feed crc32 cap x).2.status = if 251 < x.length then .errLength else .errMalformed := by
  split_ifs with hl
  · rw [feed_of_long crc32 cap m hl, Response.raise_status]
  · rw [feed_of_malformed crc32 cap (not_lt.mp hl) ((not_accepts_iff (not_lt.mp hl)).mp hx), Response.raise_status]

/-- Of a chunk that is accepted the capacity is checked, then the count, then the CRC (R184 to R191, R228). -/
theorem Reassembler.feed_status_of_accepts {m : Reassembler} {x : Bytes} (cap : Nat) (hx : Accepts m x) :
    (m.feed crc32 cap x).2.status =
      if cap < (accBefore m).length + le16 x 5 then .errOverflow
      else if countBefore m + 1 < expectedOf m x then .incomplete
      else if EndsInCrc (accAfter m x) then .ok
      else .errIntegrity := by
  rw [feed_of_accepts crc32 cap hx, completeResponse_crc32]
  simp only [apply_ite Prod.snd, apply_ite Response.status, Response.raise_status, Response.respond_status]

/-! ### The causes of each error of CHUNK_FEED -/

section
variable {cap : Nat} {m : Reassembler} {x : Bytes}

theorem Reassembler.feed_status_eq_errLength_iff : (m.feed crc32 cap x).2.status = .errLength ↔ 251 < x.length := by
  by_cases hx : Accepts m x
  · rw [feed_status_of_accepts cap hx]
    exact iff_of_false (by split_ifs <;> decide) (not_lt.mpr hx.1)
  · simp [feed_status_of_not_accepts cap hx]

theorem Reassembler.feed_status_eq_errMalformed_iff :
    (m.feed crc32 cap x).2.status = .errMalformed ↔ x.length ≤ 251 ∧
      (x.length < 7 ∨ x.length < 7 + le16 x 5 ∨ (m.phase = .idle ∧ le16 x 1 = 0)) := by
  rw [← and_congr_right not_accepts_iff]
  by_cases hx : Accepts m x
  · rw [feed_status_of_accepts cap hx]
    exact iff_of_false (by split_ifs <;> decide) fun h => h.2 hx
  · rw [feed_status_of_not_accepts cap hx, and_iff_left hx, ← not_lt]
    split_ifs with hl <;> simp [hl]

theorem Reassembler.feed_status_eq_errOverflow_iff :
    (m.feed crc32 cap x).2.status = .errOverflow ↔
      Accepts m x ∧ cap < (accBefore m).length + le16 x 5 := by
  by_cases hx : Accepts m x
  · rw [feed_status_of_accepts cap hx]
    by_cases hcap : cap < (accBefore m).length + le16 x 5
    · exact iff_of_true (if_pos hcap) ⟨hx, hcap⟩
    · rw [if_neg hcap]
      exact iff_of_false (by split_ifs <;> decide) fun h => hcap h.2
  · rw [feed_status_of_not_accepts cap hx]
    exact iff_of_false (by split_ifs <;> decide) fun h => hx h.1

theorem Reassembler.feed_status_eq_errIntegrity_iff :
    (m.feed crc32 cap x).2.status = .errIntegrity ↔
      Taken cap m x ∧ expectedOf m x ≤ countBefore m + 1 ∧
        ((accAfter m x).length < 4 ∨ ¬ EndsInCrc (accAfter m x)) := by
  rw [or_iff_right_of_imp fun hshort ⟨hl, _⟩ => not_le.mpr hshort hl]
  by_cases hx : Accepts m x
  · rw [feed_status_of_accepts cap hx]
    split_ifs with hcap hlt hcrc
    · exact iff_of_false nofun fun ⟨⟨_, h⟩, _⟩ => not_lt.mpr h hcap
    · exact iff_of_false nofun fun ⟨_, h, _⟩ => not_lt.mpr h hlt
    · exact iff_of_false nofun fun ⟨_, _, h⟩ => h hcrc
    · exact iff_of_true rfl ⟨⟨hx, not_lt.mp hcap⟩, not_lt.mp hlt, hcrc⟩
  · rw [feed_status_of_not_accepts cap hx]
    exact iff_of_false (by split_ifs <;> decide) fun ⟨⟨h, _⟩, _⟩ => hx h

theorem Reassembler.feed_status_ne_errBadop : (m.feed crc32 cap x).2.status ≠ .errBadop := by
  by_cases hx : Accepts m x
  · rw [feed_status_of_accepts cap hx]
    split_ifs <;> decide
  · rw [feed_status_of_not_accepts cap hx]
    split_ifs <;> decide

end

/-! ### The causes of each error over all operations -/

/-- The statuses that are left to CHUNK_FEED alone: every other operation answers OK, ERR_LENGTH or ERR_INTEGRITY. -/
theorem answer_status_iff_of_feed {e : Status} {cap : Nat} {m : Reassembler} {P : Bytes → Prop}
    (he : e ∉ [.ok, .errLength, .errIntegrity]) (hP : ∀ x, (m.feed crc32 cap x).2.status = e ↔ P x) (i : Instr) :
    (answer crc32 cap m i).2.status = e ↔ ∃ x, i = .chunkFeed x ∧ P x := by
  have hother {st : Status} (hst : st ∈ [.ok, .errLength, .errIntegrity]) (hi : ∀ x, i ≠ .chunkFeed x) :
      st = e ↔ ∃ x, i = .chunkFeed x ∧ P x :=
    iff_of_false (fun h => he (h ▸ hst)) fun ⟨x, hx, _⟩ => hi x hx
  cases i with
  | chunkFeed x => simp [answer, hP]
  | crc32 x => exact hother (.head _) nofun
  | pktEncode cmd x => exact hother (by rw [answer, pktEncodeResponse_status]; split_ifs <;> decide) nofun
  | pktDecode x => exact hother (by rw [answer, pktDecodeResponse_status]; split_ifs <;> decide) nofun
  | chunkEncode sub x => exact hother (by rw [answer, chunkEncodeResponse_status]; split_ifs <;> decide) nofun
  | reasmClear x => exact hother (by rw [answer, Reassembler.clear_status]; split_ifs <;> decide) nofun

/-- No operation answers ERR_BADOP: it is the answer to a request word that names none (R226). -/
theorem answer_status_ne_errBadop (cap : Nat) (m : Reassembler) (i : Instr) :
    (answer crc32 cap m i).2.status ≠ .errBadop := fun h =>
  have ⟨_, _, hfalse⟩ := (answer_status_iff_of_feed (by decide)
    (fun _ => iff_false_intro Reassembler.feed_status_ne_errBadop) i).mp h
  hfalse

/-- Settles O47: each operation checks the length of its operand first. -/
theorem lengthErrorCauses : Obligations.LengthErrorCauses := by
  refine fun i s => ⟨_, _, exec_answer i s, ?_⟩
  cases i with
  | crc32 x => simp [answer, crcResponse]
  | pktEncode cmd x => simp [answer, pktEncodeResponse_status]
  | pktDecode x =>
    rw [answer, pktDecodeResponse_status]
    split_ifs with hl <;> simp [hl]
  | chunkEncode sub x => simp [answer, chunkEncodeResponse_status]
  | chunkFeed x => simp [answer, Reassembler.feed_status_eq_errLength_iff]
  | reasmClear x => simp [answer, Reassembler.clear_status]

/-- Settles O48: a frame that is not intact, or the check of a completed accumulation. -/
theorem integrityErrorCauses : Obligations.IntegrityErrorCauses := by
  refine fun i s => ⟨_, _, exec_answer i s, ?_⟩
  cases i with
  | crc32 x => simp [answer, crcResponse]
  | pktEncode cmd x => simp [answer, pktEncodeResponse_status, ite_eq_iff]
  | pktDecode x =>
    have hfields : Intact crc32 x ↔ le32 x 252 = (crc32 (slice x 0 252)).toNat := Iff.rfl
    rw [answer, pktDecodeResponse_status]
    split_ifs with hl hc
    · simp [hl]
    · simp [hfields.mp hc]
    · simp [not_not.mp hl, hfields.not.mp hc]
  | chunkEncode sub x => simp [answer, chunkEncodeResponse_status, ite_eq_iff]
  | chunkFeed x => simp [answer, Reassembler.feed_status_eq_errIntegrity_iff]
  | reasmClear x => simp [answer, Reassembler.clear_status, ite_eq_iff]

/-- Settles O49: only CHUNK_FEED reads a chunk header. -/
theorem malformedErrorCauses : Obligations.MalformedErrorCauses := fun i s =>
  ⟨_, _, exec_answer i s,
    answer_status_iff_of_feed (by decide) (fun _ => Reassembler.feed_status_eq_errMalformed_iff) i⟩

/-- Settles O50: only CHUNK_FEED appends to the accumulation. -/
theorem overflowErrorCause : Obligations.OverflowErrorCause := fun i s =>
  ⟨_, _, exec_answer i s,
    answer_status_iff_of_feed (by decide) (fun _ => Reassembler.feed_status_eq_errOverflow_iff) i⟩

/-! ### The block after an error, and between requests -/

/-- Settles O5: an illegal word is refused with nothing changed, and a legal one runs an operation, none of which
answers ERR_BADOP. -/
theorem badopComesOnlyFromRequestWord : Obligations.BadopComesOnlyFromRequestWord := by
  intro s q x rest hq hx hs
  by_cases hill : IllegalWord q
  · exact ⟨s.reasm, _, step_of_illegalWord hq hx hs hill, iff_of_true rfl hill, fun _ => rfl⟩
  · obtain ⟨i, -, -, -, hstep⟩ := (requestWordsAreCheckedFirst s q x rest hq hx hs).2 hill
    have hne := answer_status_ne_errBadop s.cap s.reasm i
    exact ⟨_, _, hstep.trans (exec_answer i _), iff_of_false hne hill, fun h => absurd h hne⟩

/-- Settles O16. -/
theorem waitingChangesNothing : Obligations.WaitingChangesNothing := fun _ => step_of_script_nil

/-- Settles O17: each event the spec describes has its step, which leaves the rest of the script for the next. -/
theorem orderlyScriptNeverStops : Obligations.OrderlyScriptNeverStops := by
  intro s hord
  cases hs : s.script with
  | nil => exact ⟨s, step_of_script_nil hs, hord, rfl⟩
  | cons ev rest =>
    rw [State.Orderly, hs] at hord
    obtain ⟨hev, hrest⟩ := List.forall_mem_cons.mp hord
    cases ev with
    | request bs =>
      obtain ⟨m, r, hstep, -⟩ := step_of_isRequest hs (of_decide_eq_true hev)
      exact ⟨_, hstep, hrest, rfl⟩
    | reset => exact ⟨_, step_of_reset hs (.inl rfl), hrest, rfl⟩
    | resetDuring bs => exact ⟨_, step_of_reset hs (.inr ⟨bs, rfl⟩), hrest, rfl⟩
    | overlap _ _ => cases hev

end Sys2Proof.Machine
end

section
/-!
What a run does with a whole script, what keeping the host duties says of the acts before a CHUNK_FEED, a transfer
received frame by frame, and the statements of 70_reset_and_hazards.md.
-/

namespace Sys2Proof.Machine

/-! ### Resets and overlapping requests -/

theorem step_of_overlap {s : State} {b c : Bytes} {rest : List HostEvent} (hs : s.script = .overlap b c :: rest) :
    step s = .refused .overlappingRequests := by
  simp [step, fetch, hs]

/-- Settles O14: a reset under a request does what any reset does. -/
theorem requestInProgressAtResetGetsNoResponse : Obligations.RequestInProgressAtResetGetsNoResponse :=
  fun _ bs _ hs => ⟨_, step_of_reset hs (.inr ⟨bs, rfl⟩), rfl, rfl, rfl, rfl⟩

/-- Settles O15. -/
theorem overlappingRequestsAreRefused : Obligations.OverlappingRequestsAreRefused := fun _ _ _ _ => step_of_overlap

/-- Settles O55: both leave the fresh reassembler. -/
theorem resetHasEffectOfReasmClear : Obligations.ResetHasEffectOfReasmClear := fun s _ hs =>
  ⟨_, _, step_of_reset hs (.inl rfl), exec_reasmClear_of_nil rfl s, rfl, rfl⟩

/-! ### A run over a whole script -/

/-- The step on an event the spec describes takes it from the script, and answers it if it is a request (R99, R261). -/
theorem step_of_orderly {s : State} {ev : HostEvent} {rest : List HostEvent} (hs : s.script = ev :: rest)
    (hev : ev.orderly = true) :
    ∃ t new, step s = .next t ∧ t.script = rest ∧ t.responses = s.responses ++ new ∧
      new.length = if ev.isRequest then 1 else 0 := by
  cases ev with
  | request bs =>
    obtain ⟨m, r, hstep, -⟩ := step_of_isRequest hs (of_decide_eq_true hev)
    exact ⟨_, [r], hstep, rfl, rfl, rfl⟩
  | reset => exact ⟨_, [], step_of_reset hs (.inl rfl), rfl, (List.append_nil _).symm, rfl⟩
  | resetDuring bs => exact ⟨_, [], step_of_reset hs (.inr ⟨bs, rfl⟩), rfl, (List.append_nil _).symm, rfl⟩
  | overlap _ _ => cases hev

/-- An orderly script is run to its end, one event a step. -/
theorem run_of_orderly {l : List HostEvent} (hl : ∀ e ∈ l, e.orderly = true) {s : State} (hs : s.script = l) :
    ∃ t new, Host.Core.run core l.length s = .next t ∧ t.script = [] ∧ t.responses = s.responses ++ new ∧
      new.length = l.countP HostEvent.isRequest := by
  induction l generalizing s with
  | nil => exact ⟨s, [], rfl, hs, (List.append_nil _).symm, rfl⟩
  | cons ev rest ih =>
    obtain ⟨hev, hrest⟩ := List.forall_mem_cons.mp hl
    obtain ⟨t, new, hstep, ht, hresp, hnew⟩ := step_of_orderly hs hev
    obtain ⟨u, more, hrun, hu, hresp', hmore⟩ := ih hrest ht
    refine ⟨u, new ++ more, (core_run_succ hstep).trans hrun, hu, ?_, ?_⟩
    · rw [hresp', hresp, List.append_assoc]
    · rw [List.length_append, hnew, hmore, List.countP_cons, Nat.add_comm]

/-- Settles O18, by induction on the script. -/
theorem runGivesOneResponsePerRequest : Obligations.RunGivesOneResponsePerRequest := fun _ hord =>
  run_of_orderly hord rfl

/-! ### Acts that lead to a CHUNK_FEED -/

theorem keepsHostDuties_cons {crc : Config.CrcFn} {v : HostView} {a : HostAct} {rest : List HostAct} :
    KeepsHostDuties crc v (a :: rest) ↔ v.permits a = true ∧ KeepsHostDuties crc (v.after crc a) rest :=
  Bool.and_eq_true_iff

theorem keepsHostDuties_append_iff {crc : Config.CrcFn} {v : HostView} {p q : List HostAct} :
    KeepsHostDuties crc v (p ++ q) ↔
      KeepsHostDuties crc v p ∧ KeepsHostDuties crc (p.foldl (HostView.after crc) v) q := by
  rw [KeepsHostDuties, keepsHostDuties_append, Bool.and_eq_true]

theorem HostView.permits_chunkFeed {v : HostView} {x : Bytes} :
    v.permits (.issue (.chunkFeed x)) = true ↔ v.mayFeed x :=
  decide_eq_true_iff

/-- A host that keeps its duties may feed the payload when it comes to feed it. -/
theorem mayFeed_of_keepsHostDuties {crc : Config.CrcFn} {v : HostView} {pre post : List HostAct} {x : Bytes}
    (h : KeepsHostDuties crc v (pre ++ [.issue (.chunkFeed x)] ++ post)) :
    (pre.foldl (HostView.after crc) v).mayFeed x := by
  rw [List.append_assoc, keepsHostDuties_append_iff] at h
  obtain ⟨-, hfeed⟩ := h
  obtain ⟨hpermits, -⟩ := keepsHostDuties_cons.mp hfeed
  exact HostView.permits_chunkFeed.mp hpermits

/-- A REASM_CLEAR stays due over any acts with neither it nor a reset among them (R266). -/
theorem HostView.foldl_after_due (crc : Config.CrcFn) {acts : List HostAct} {v : HostView} (hv : v.due = true)
    (hacts : ∀ b ∈ acts, b ≠ .issue (.reasmClear []) ∧ b ≠ .reset ∧ ∀ i, b ≠ .resetDuring i) :
    (acts.foldl (HostView.after crc) v).due = true := by
  induction acts generalizing v with
  | nil => exact hv
  | cons b acts ih =>
    obtain ⟨⟨hclear, hreset, hduring⟩, hacts⟩ := List.forall_mem_cons.mp hacts
    exact ih (v.after_due crc hv hclear hreset hduring) hacts

/-- A checked payload was checked before the acts or by a PKT_DECODE among them (R274). -/
theorem HostView.mem_checked_foldl_after (crc : Config.CrcFn) {acts : List HostAct} {v : HostView}
    {p : Byte × Bytes} (h : p ∈ (acts.foldl (HostView.after crc) v).checked) :
    p ∈ v.checked ∨ ∃ f, .issue (.pktDecode f) ∈ acts ∧ pktDecodeResponse crc f = ⟨.ok, p.1, [p.2]⟩ := by
  induction acts generalizing v with
  | nil => exact .inl h
  | cons b acts ih =>
    obtain h | ⟨f, hf, hdec⟩ := ih h
    · obtain h | ⟨f, rfl, hdec⟩ := mem_checked_after crc h
      · exact .inl h
      · exact .inr ⟨f, List.mem_cons_self, hdec⟩
    · exact .inr ⟨f, List.mem_cons_of_mem b hf, hdec⟩

/-- An error response aborts the host's operation, so a REASM_CLEAR is due (R266, R274). -/
theorem HostView.answered_due_of_error {crc : Config.CrcFn} {v : HostView} {i : Instr}
    (h : (answer crc v.cap v.reasm i).2.status.isError = true) : (v.answered crc i).due = true := by
  obtain ⟨-, e⟩ | ⟨hok, -⟩ := v.answered_cases crc i
  · rw [e, abort_due]
  · exact absurd (hok.symm.trans h) Bool.false_ne_true

/-- Settles O56: each of these acts makes a REASM_CLEAR due, and it stays due up to the CHUNK_FEED. -/
theorem feedNeedsClearWhenDue : Obligations.FeedNeedsClearWhenDue := by
  intro crc v a mid post x ha hmid hkeeps
  have hdue : (v.after crc a).due = true := by
    obtain rfl | rfl | ⟨rfl, hused⟩ | ⟨i, rfl, herr⟩ := ha
    · rfl
    · rfl
    · simp [HostView.after, hused]
    · exact HostView.answered_due_of_error herr
  have hstill : (([a] ++ mid).foldl (HostView.after crc) v).due = true :=
    HostView.foldl_after_due crc (v := v.after crc a) hdue hmid
  obtain ⟨hclear, -⟩ := mayFeed_of_keepsHostDuties hkeeps
  exact absurd (hclear.symm.trans hstill) Bool.false_ne_true

/-- Settles O57: the payload is checked when it is fed, and nothing but a PKT_DECODE can have checked it. -/
theorem fedPayloadsAreCheckedConfigPieces : Obligations.FedPayloadsAreCheckedConfigPieces := by
  intro crc v pre post x hv hkeeps
  obtain ⟨-, -, ⟨hconfig, hsub⟩, -⟩ := mayFeed_of_keepsHostDuties hkeeps
  obtain hbefore | hdecoded := HostView.mem_checked_foldl_after crc hconfig
  · exact absurd hbefore (by simp [hv])
  · exact ⟨hsub, hdecoded⟩

/-! ### A transfer received frame by frame -/

/-- The view after PKT_DECODE of an intact frame (R274). -/
def HostView.checkFrame (v : HostView) (f : Bytes) : HostView :=
  { v with used := true, checked := (frameCmd f, framePayload f) :: v.checked }

theorem HostView.after_pktDecode {crc : Config.CrcFn} (v : HostView) {f : Bytes} (hl : f.length = 256)
    (hc : Intact crc f) : v.after crc (.issue (.pktDecode f)) = v.checkFrame f := by
  simp [after, answered, answer, pktDecodeResponse_of_intact hl hc, Status.isError, learn, checkFrame]

/-- A chunk taken with no error changes nothing of what the host knows but the reassembler. -/
theorem HostView.after_chunkFeed {crc : Config.CrcFn} {v : HostView} {x : Bytes} {m : Reassembler} {r : Response}
    (h : v.reasm.feed crc v.cap x = (m, r)) (hr : r.status.isError = false) :
    v.after crc (.issue (.chunkFeed x)) = { v with reasm := m, used := true } := by
  simp [after, answered, answer, h, hr, learn]

/-- The reassembler with k chunks of the transfer of d taken: fresh before the first and after the last (R185). -/
def Reassembler.piecesTaken (crc : Config.CrcFn) (d : Bytes) (k : Nat) : Reassembler :=
  if 0 < k ∧ k < pieceCount d.length then underWay (pieceCount d.length) k ((transferStream crc d).take (240 * k))
  else .fresh

/-- The piece of each chunk goes on where the pieces before it end (R171). -/
theorem take_append_streamPiece (s : Bytes) (k : Nat) :
    s.take (240 * k) ++ streamPiece s k = s.take (240 * (k + 1)) := by
  rw [streamPiece_eq, Nat.mul_succ, List.take_add]

section
variable (crc : Config.CrcFn) (sub : Byte) {d : Bytes} (hd : d.length ≤ 15728396) {k : Nat}
  (hk : k < pieceCount d.length)
include hd hk

theorem chunkSub_chunkIndex_chunkOf_append (pad : Bytes) :
    chunkSub (chunkOf crc sub d k ++ pad) = sub ∧ chunkIndex (chunkOf crc sub d k ++ pad) = k := by
  have hn := pieceCount_le hd
  have hp := streamPiece_length_le (transferStream crc d) k
  obtain ⟨hsub, -, hindex, -⟩ :=
    makeChunk_fields sub (total := pieceCount d.length) (index := k) pad (by omega) (by omega)
      (p := streamPiece (transferStream crc d) k) (by omega)
  exact ⟨hsub, hindex⟩

/-- The first chunk too is fed as into an accumulation under way, with nothing taken yet (R183). -/
theorem Reassembler.feed_piecesTaken_eq_feed_underWay (cap : Nat) {pad : Bytes}
    (hx : FitsFeed (chunkOf crc sub d k ++ pad)) :
    (piecesTaken crc d k).feed crc cap (chunkOf crc sub d k ++ pad) =
      (underWay (pieceCount d.length) k ((transferStream crc d).take (240 * k))).feed crc cap
        (chunkOf crc sub d k ++ pad) := by
  obtain ⟨htotal, -⟩ := chunkOf_append_fields crc sub hd hk pad
  cases k with
  | zero =>
    have hfresh : piecesTaken crc d 0 = .fresh := if_neg (by simp)
    rw [hfresh, feed_idle_eq_feed_underWay crc cap fresh_phase hx (htotal ▸ hk), htotal]
    rfl
  | succ k => rw [piecesTaken, if_pos ⟨k.succ_pos, hk⟩]

/-- Feeding the next chunk of a transfer is no error, where the buffer has room for the stream (R185). -/
theorem Reassembler.feed_piecesTaken {cap : Nat} (hcap : d.length + 4 ≤ cap) {pad : Bytes}
    (hx : FitsFeed (chunkOf crc sub d k ++ pad)) :
    ∃ r, (piecesTaken crc d k).feed crc cap (chunkOf crc sub d k ++ pad) = (piecesTaken crc d (k + 1), r) ∧
      r.status.isError = false := by
  have hn := pieceCount_le hd
  obtain ⟨-, -, hpiece⟩ := chunkOf_append_fields crc sub hd hk pad
  have hroom : ((transferStream crc d).take (240 * k)).length + (streamPiece (transferStream crc d) k).length ≤
      cap := by
    rw [← List.length_append, take_append_streamPiece, List.length_take, transferStream_length]
    omega
  rw [feed_piecesTaken_eq_feed_underWay crc sub hd hk cap hx,
    feed_underWay crc cap (by omega) hk hx (by rwa [hpiece]), hpiece, take_append_streamPiece, piecesTaken]
  by_cases hlast : k + 1 < pieceCount d.length
  · rw [if_pos hlast, if_pos ⟨k.succ_pos, hlast⟩]
    exact ⟨_, rfl, rfl⟩
  · have hall : (transferStream crc d).take (240 * (k + 1)) = transferStream crc d :=
      List.take_of_length_le ((transferStream_length_le crc d).trans (Nat.mul_le_mul_left _ (not_lt.mp hlast)))
    rw [if_neg hlast, if_neg fun h => hlast h.2, hall, completeResponse_transferStream]
    exact ⟨_, rfl, rfl⟩

/-- The next chunk of a transfer is the next in order (R271, R272). -/
theorem HostView.feedsInOrder_piecesTaken {v : HostView} (hv : v.reasm = .piecesTaken crc d k) (pad : Bytes) :
    v.feedsInOrder (chunkOf crc sub d k ++ pad) := by
  have hn := pieceCount_le hd
  obtain ⟨-, hindex⟩ := chunkSub_chunkIndex_chunkOf_append crc sub hd hk pad
  obtain ⟨htotal, -⟩ := chunkOf_append_fields crc sub hd hk pad
  rw [feedsInOrder, hindex, htotal, hv, Reassembler.piecesTaken]
  split_ifs with h
  · exact ⟨nofun, fun _ => ⟨(Nat.mod_eq_of_lt (by omega)).symm, (Nat.mod_eq_of_lt (by omega)).symm⟩⟩
  · exact ⟨fun _ => by omega, nofun⟩

end

/-- The frame a host receives for chunk j of a transfer (R102). -/
def transferFrame (crc : Config.CrcFn) (cmd sub : Byte) (d : Bytes) (j : Nat) : Bytes :=
  makeFrame crc cmd (chunkOf crc sub d j)

section
variable (crc : Config.CrcFn) (cmd sub : Byte) (d : Bytes)

theorem chunkOf_length_le_payloadLen (j : Nat) : (chunkOf crc sub d j).length ≤ 251 :=
  (chunkOf_length_le crc sub d j).trans (by decide)

theorem transferFrame_length (j : Nat) : (transferFrame crc cmd sub d j).length = 256 :=
  makeFrame_length crc cmd (chunkOf_length_le_payloadLen crc sub d j)

theorem transferFrame_intact (j : Nat) : Intact crc (transferFrame crc cmd sub d j) :=
  makeFrame_intact crc cmd (chunkOf_length_le_payloadLen crc sub d j)

theorem frameCmd_transferFrame (j : Nat) : frameCmd (transferFrame crc cmd sub d j) = cmd := rfl

/-- The payload of the frame is the chunk, padded (R82). -/
theorem framePayload_transferFrame (j : Nat) : ∃ pad,
    framePayload (transferFrame crc cmd sub d j) = chunkOf crc sub d j ++ pad ∧
      (chunkOf crc sub d j ++ pad).length ≤ 251 := by
  have h := framePayload_makeFrame crc cmd (chunkOf_length_le_payloadLen crc sub d j)
  exact ⟨_, h, h ▸ List.length_take_le _ _⟩

end

theorem receiveScript_cons (f : Bytes) (fs : List Bytes) :
    receiveScript (f :: fs) = .issue (.pktDecode f) :: .issue (.chunkFeed (framePayload f)) :: receiveScript fs := rfl

/-- A host with k chunks of the transfer of d taken, that may go on with the next. -/
structure HostView.Receiving (crc : Config.CrcFn) (d : Bytes) (k : Nat) (v : HostView) : Prop where
  room : d.length + 4 ≤ v.cap
  notDue : v.due = false
  reasm : v.reasm = .piecesTaken crc d k

/-- The next config frame of the transfer may be fed once it is checked, and the host may then go on (R266, R271 to
R274). -/
theorem HostView.Receiving.next {crc : Config.CrcFn} {d : Bytes} (hd : d.length ≤ 15728396) {k : Nat}
    (hk : k < pieceCount d.length) {v : HostView} (hv : v.Receiving crc d k) {f : Bytes}
    (hf : f = transferFrame crc configCommand dataFollows d k) :
    (v.checkFrame f).mayFeed (framePayload f) ∧
      ((v.checkFrame f).after crc (.issue (.chunkFeed (framePayload f)))).Receiving crc d (k + 1) := by
  obtain ⟨hroom, hdue, hreasm⟩ := hv
  obtain ⟨pad, hpayload, hl⟩ := framePayload_transferFrame crc configCommand dataFollows d k
  rw [← hf] at hpayload
  have hcmd : frameCmd f = configCommand := hf ▸ frameCmd_transferFrame crc configCommand dataFollows d k
  obtain ⟨hsub, -⟩ := chunkSub_chunkIndex_chunkOf_append crc dataFollows hd hk pad
  have hx := fitsFeed_chunkOf_append crc dataFollows hd hk hl
  obtain ⟨r, hfeed, hr⟩ := Reassembler.feed_piecesTaken crc dataFollows hd hk hroom hx
  refine ⟨⟨hdue, ?_, ⟨?_, ?_⟩, ?_⟩, ?_⟩
  · rw [hpayload]
    exact feedsInOrder_piecesTaken crc dataFollows hd hk (v := v.checkFrame f) hreasm pad
  · exact List.mem_cons.mpr (.inl (by rw [hcmd]))
  · rw [hpayload, hsub]
  · exact List.mem_cons_self
  · rw [hpayload, after_chunkFeed (v := v.checkFrame f) (hreasm ▸ hfeed) hr]
    exact ⟨hroom, hdue, rfl⟩

/-- The frames from k on, in order, are received with every duty kept. -/
theorem keepsHostDuties_receiveScript {crc : Config.CrcFn} {d : Bytes} (hd : d.length ≤ 15728396) {n k : Nat}
    (hk : k + n = pieceCount d.length) {v : HostView} (hv : v.Receiving crc d k) :
    KeepsHostDuties crc v
      (receiveScript ((List.range' k n).map (transferFrame crc configCommand dataFollows d))) := by
  induction n generalizing k v with
  | zero => rfl
  | succ n ih =>
    obtain ⟨hfeed, hnext⟩ := hv.next hd (by omega) rfl
    rw [List.range'_succ, List.map_cons, receiveScript_cons]
    have hchecked := HostView.after_pktDecode v (transferFrame_length crc configCommand dataFollows d k)
      (transferFrame_intact crc configCommand dataFollows d k)
    refine keepsHostDuties_cons.mpr ⟨rfl, ?_⟩
    rw [hchecked]
    exact keepsHostDuties_cons.mpr ⟨HostView.permits_chunkFeed.mpr hfeed, ih (by omega) hnext⟩

/-- The frames of a buffer the segmenter accepts, by index (R171). -/
theorem frames_eq (crc : Config.CrcFn) (cmd sub : Byte) {d : Bytes} (hd : d.length ≤ 15728396) :
    (chunkEncodeResponse crc sub d).outs.map (makeFrame crc cmd) =
      (List.range (pieceCount d.length)).map (transferFrame crc cmd sub d) := by
  rw [chunkEncodeResponse_eq crc sub hd, Response.respond_outs, makeChunks_eq, List.map_map]
  rfl

/-- The four ways a host may come to a transfer: by a REASM_CLEAR or a reset, also across a session's start. -/
abbrev transferStarts : List (List HostAct) :=
  [[.issue (.reasmClear [])], [.opens, .issue (.reasmClear [])], [.reset], [.reset, .opens]]

/-- After each of them no REASM_CLEAR is due, and nothing is accumulated (R266). -/
theorem after_transferStart (crc : Config.CrcFn) (v : HostView) {start : List HostAct} (h : start ∈ transferStarts) :
    KeepsHostDuties crc v start ∧ (start.foldl (HostView.after crc) v).cap = v.cap ∧
      (start.foldl (HostView.after crc) v).due = false ∧ (start.foldl (HostView.after crc) v).reasm = .fresh := by
  simp only [transferStarts, List.mem_cons, List.not_mem_nil, or_false] at h
  obtain rfl | rfl | rfl | rfl := h <;> exact ⟨rfl, rfl, rfl, rfl⟩

theorem pktDecode_not_mem_transferStart {start : List HostAct} (h : start ∈ transferStarts) (f : Bytes) :
    .issue (.pktDecode f) ∉ start := by
  simp only [transferStarts, List.mem_cons, List.not_mem_nil, or_false] at h
  obtain rfl | rfl | rfl | rfl := h <;> simp

/-- With nothing checked before, feeding the first payload is allowed only for a config frame of sub-command 2
(R273). -/
theorem config_of_keepsHostDuties {crc : Config.CrcFn} {cmd sub : Byte} {d : Bytes} (hd : d.length ≤ 15728396)
    {v : HostView} (hv : v.checked = []) {start : List HostAct} (hstart : start ∈ transferStarts)
    (h : KeepsHostDuties crc v
      (start ++ receiveScript ((List.range (pieceCount d.length)).map (transferFrame crc cmd sub d)))) :
    cmd = configCommand ∧ sub = dataFollows := by
  have hpos : 0 < pieceCount d.length := by
    simp only [pieceCount, ceilDiv, Config.crcLen, Config.pieceLen]
    omega
  obtain ⟨n, hn⟩ := Nat.exists_eq_add_one.mpr hpos
  obtain ⟨pad, hpayload, -⟩ := framePayload_transferFrame crc cmd sub d 0
  obtain ⟨hsub, -⟩ := chunkSub_chunkIndex_chunkOf_append crc sub hd hpos pad
  have hdec := pktDecodeResponse_of_intact (transferFrame_length crc cmd sub d 0) (transferFrame_intact crc cmd sub d 0)
  rw [hn, List.range_succ_eq_map, List.map_cons, receiveScript_cons, List.append_cons, List.append_cons] at h
  obtain ⟨hfollows, f, hf, hdec'⟩ := fedPayloadsAreCheckedConfigPieces crc v _ _ _ hv h
  obtain rfl : f = transferFrame crc cmd sub d 0 := by
    simpa [pktDecode_not_mem_transferStart hstart] using hf
  refine ⟨congrArg Response.argOut (hdec.symm.trans hdec'), ?_⟩
  rw [hpayload] at hfollows
  exact hsub.symm.trans hfollows

/-- Settles O54: from each start the host may go on with chunk 0, and then chunk by chunk; the converse is what
feeding the first payload asks for. -/
theorem receivingTransferKeepsHostDuties : Obligations.ReceivingTransferKeepsHostDuties := by
  intro v c u d start hd hcap hstart
  simp only [frames_eq crc32 c u hd]
  refine ⟨?_, fun hv hother hkeeps => hother (config_of_keepsHostDuties hd hv hstart hkeeps)⟩
  rintro ⟨rfl, rfl⟩
  obtain ⟨hkeeps, hcap', hdue, hreasm⟩ := after_transferStart crc32 v hstart
  have hready : (start.foldl (HostView.after crc32) v).Receiving crc32 d 0 :=
    ⟨hcap'.symm ▸ hcap, hdue, hreasm.trans (if_neg (by simp)).symm⟩
  rw [List.range_eq_range']
  exact keepsHostDuties_append_iff.mpr ⟨hkeeps, keepsHostDuties_receiveScript hd (Nat.zero_add _) hready⟩

end Sys2Proof.Machine
end

section
/-!
The reassembler after a reset, and in a block whose buffer holds the largest transfer there is.
-/

namespace Sys2Proof.Machine

open Claims

/-- Settles O13: both leave the fresh reassembler. -/
theorem platformResetClearsReassembler : Obligations.PlatformResetClearsReassembler := fun s _ hs =>
  ⟨step_of_reset hs (.inl rfl), _, exec_reasmClear_of_nil rfl s, rfl⟩

/-- What is accumulated leaves room for one more piece of the largest size among 65535 of them (R33). -/
theorem Reassembler.accBefore_length_le {cap : Nat} {m : Reassembler} (hm : m.Inv cap) :
    (accBefore m).length ≤ 65534 * 244 := by
  obtain ⟨-, haccum⟩ := hm
  cases hphase : m.phase with
  | idle => simp [accBefore, hphase]
  | accum =>
    obtain ⟨-, hlt, hexp, hacc, -⟩ := haccum hphase
    simp only [Config.maxPieces, Config.maxPieceField] at hexp hacc
    simp only [accBefore, hphase, reduceCtorEq, if_false]
    omega

/-- Settles O41: an accepted piece has at most 244 bytes, and the invariant bounds what stands before it. -/
theorem largeBufferNeverOverflows : Obligations.LargeBufferNeverOverflows := by
  refine fun x s hinv hcap => ⟨_, _, exec_chunkFeed x s, fun h => ?_⟩
  obtain ⟨⟨hlen, -, hpiece, -⟩, hover⟩ := Reassembler.feed_status_eq_errOverflow_iff.mp h
  have hacc := Reassembler.accBefore_length_le hinv
  omega

end Sys2Proof.Machine
end

section
/-!
The CRC as a linear map: the register and the string still to come are one number, a difference of two strings runs
through the turns of R121 by itself, and the CRC misses exactly the differences that run to 0. The detection properties
of R125.
-/

namespace Sys2Proof.Machine

open Claims

/-! ### A byte string as one number -/

/-- The number whose bit k is bit k of the string, in the order the CRC takes them (R122). -/
def bitsValue (b : Bytes) : Nat := Nat.ofDigits 256 (b.map BitVec.toNat)

@[simp] theorem bitsValue_nil : bitsValue [] = 0 := rfl

theorem bitsValue_cons (a : Byte) (b : Bytes) : bitsValue (a :: b) = 2 ^ 8 * bitsValue b + a.toNat := by
  rw [bitsValue, List.map_cons, Nat.ofDigits_cons, Nat.add_comm]
  rfl

/-- The first byte and the rest share no bit. -/
theorem bitsValue_cons_eq_xor (a : Byte) (b : Bytes) : bitsValue (a :: b) = a.toNat ^^^ 2 ^ 8 * bitsValue b := by
  apply Nat.eq_of_testBit_eq
  intro k
  rw [bitsValue_cons, Nat.testBit_two_pow_mul_add _ a.isLt, Nat.testBit_xor, Nat.testBit_two_pow_mul]
  split_ifs with hk
  · simp [Nat.not_le.mpr hk]
  · simp [Nat.not_lt.mp hk, BitVec.testBit_toNat]

theorem testBit_bitsValue (b : Bytes) (k : Nat) : (bitsValue b).testBit k = bitAt b k := by
  induction b generalizing k with
  | nil => simp [bitAt, byteAt]
  | cons a b ih =>
    rw [bitsValue_cons, Nat.testBit_two_pow_mul_add _ a.isLt]
    split_ifs with hk
    · simp [bitAt, byteAt, Nat.div_eq_of_lt hk, Nat.mod_eq_of_lt hk, BitVec.testBit_toNat]
    · obtain ⟨j, rfl⟩ := Nat.exists_eq_add_of_le (not_lt.mp hk)
      simp [ih, bitAt, byteAt, Nat.add_comm 8]

theorem bitsValue_inj {a b : Bytes} (hlen : a.length = b.length) : bitsValue a = bitsValue b ↔ a = b := by
  refine ⟨fun h => ?_, congrArg bitsValue⟩
  have hdigit (c : Bytes) : ∀ d ∈ c.map BitVec.toNat, d < 256 := by
    simp only [List.mem_map, forall_exists_index, and_imp, forall_apply_eq_imp_iff₂]
    exact fun x _ => x.isLt
  have hinj : Function.Injective (BitVec.toNat (w := 8)) := fun _ _ => BitVec.eq_of_toNat_eq
  exact List.map_injective_iff.mpr hinj
    (Nat.ofDigits_inj_of_len_eq (by decide) (by simpa using hlen) (hdigit a) (hdigit b) h)

/-- XORing a pattern into a string where it fits XORs it into the number. -/
theorem bitsValue_xorAtBit {b : Bytes} {n p : Nat} (hfit : p * 2 ^ n < 2 ^ (8 * b.length)) :
    bitsValue (xorAtBit b n p) = bitsValue b ^^^ p * 2 ^ n := by
  apply Nat.eq_of_testBit_eq
  intro k
  have hsplit : k % 8 + 8 * (k / 8) = k := Nat.mod_add_div k 8
  rw [Nat.testBit_xor, testBit_bitsValue, testBit_bitsValue]
  rcases Nat.lt_or_ge (k / 8) b.length with hin | hout
  · have hbit : (BitVec.ofNat 8 (p * 2 ^ n / 256 ^ (k / 8))).getLsbD (k % 8) = (p * 2 ^ n).testBit k := by
      rw [show 256 = 2 ^ 8 from rfl, ← Nat.pow_mul, BitVec.getLsbD_ofNat, Nat.testBit_div_two_pow, hsplit,
        decide_eq_true (Nat.mod_lt k (by decide)), Bool.true_and]
    rw [← hbit, ← BitVec.getLsbD_xor]
    simp [bitAt, byteAt, hin]
  · have hzero : (p * 2 ^ n).testBit k = false :=
      Nat.testBit_lt_two_pow (hfit.trans_le (Nat.pow_le_pow_right (by decide) (by omega)))
    simp [bitAt, byteAt, hzero, List.getElem?_eq_none hout]

/-! ### One turn on the register and the string together -/

/-- One turn of R121 on a number of any size: the register in its low 32 bits, XORed with the string's bits that are
still to come. -/
def streamBit (v : Nat) : Nat := if v.testBit 0 = true then (v >>> 1) ^^^ crcPoly.toNat else v >>> 1

theorem testBit_streamBit (v i : Nat) :
    (streamBit v).testBit i = ((v.testBit (i + 1)) ^^ (v.testBit 0 && crcPoly.toNat.testBit i)) := by
  have hshift : (v >>> 1).testBit i = v.testBit (i + 1) := by rw [Nat.testBit_shiftRight, Nat.add_comm]
  unfold streamBit
  split_ifs with hlow
  · rw [Nat.testBit_xor, hshift, hlow, Bool.true_and]
  · rw [hshift, Bool.eq_false_iff.mpr hlow, Bool.false_and, Bool.xor_false]

theorem streamBit_xor (u v : Nat) : streamBit (u ^^^ v) = streamBit u ^^^ streamBit v := by
  apply Nat.eq_of_testBit_eq
  intro i
  simp only [Nat.testBit_xor, testBit_streamBit, Bool.and_xor_distrib_right, Bool.xor_assoc,
    Bool.xor_left_comm]

theorem iterate_streamBit_xor (n u v : Nat) :
    streamBit^[n] (u ^^^ v) = streamBit^[n] u ^^^ streamBit^[n] v :=
  Function.Semiconj₂.iterate streamBit_xor n u v

/-- While a 0 falls out, a turn only shifts. -/
theorem iterate_streamBit_two_pow_mul (n v : Nat) : streamBit^[n] (2 ^ n * v) = v := by
  have hshift : Function.LeftInverse streamBit (2 * ·) := fun v => by
    simp [streamBit, Nat.shiftRight_one]
  simpa [mul_left_iterate] using hshift.iterate n v

theorem toNat_semiconj_crcBit : Function.Semiconj BitVec.toNat crcBit streamBit := by
  intro c
  simp only [crcBit, streamBit, BitVec.testBit_toNat, apply_ite BitVec.toNat, BitVec.toNat_xor,
    BitVec.toNat_ushiftRight]

theorem toNat_crcByte (c : U32) (a : Byte) : (crcByte c a).toNat = streamBit^[8] (c.toNat ^^^ a.toNat) := by
  have hwide : (a.setWidth 32).toNat = a.toNat := BitVec.toNat_setWidth_of_le (by decide)
  rw [crcByte, (toNat_semiconj_crcBit.iterate_right 8).eq, BitVec.toNat_xor, hwide]

/-- The register after a string: as many turns as the string has bits. -/
theorem toNat_crcRun (c : U32) (b : Bytes) :
    (crcRun c b).toNat = streamBit^[8 * b.length] (c.toNat ^^^ bitsValue b) := by
  induction b generalizing c with
  | nil => simp
  | cons a b ih =>
    rw [crcRun_cons, ih, bitsValue_cons_eq_xor, ← Nat.xor_assoc, List.length_cons, Nat.mul_succ,
      Function.iterate_add_apply, iterate_streamBit_xor 8, iterate_streamBit_two_pow_mul, toNat_crcByte]

/-- Two strings of one length share a CRC exactly when their difference runs to 0. -/
theorem crc32_eq_iff {a b : Bytes} (hlen : a.length = b.length) :
    crc32 a = crc32 b ↔ streamBit^[8 * b.length] (bitsValue a ^^^ bitsValue b) = 0 := by
  rw [crc32, crc32, BitVec.xor_left_inj, ← BitVec.toNat_inj, toNat_crcRun, toNat_crcRun, hlen, iterate_streamBit_xor,
    iterate_streamBit_xor, iterate_streamBit_xor, Nat.xor_right_inj, Nat.xor_eq_zero_iff]

/-! ### Which differences run to 0 -/

/-- A register that is not 0 never becomes 0 with no data coming in. -/
theorem iterate_streamBit_eq_zero_iff {v : Nat} (hv : v < 2 ^ 32) (n : Nat) : streamBit^[n] v = 0 ↔ v = 0 := by
  have hreg : (crcBit^[n] (BitVec.ofNat 32 v)).toNat = streamBit^[n] v := by
    rw [(toNat_semiconj_crcBit.iterate_right n).eq, BitVec.toNat_ofNat, Nat.mod_eq_of_lt hv]
  have hzero : crcBit^[n] 0#32 = 0#32 := Function.iterate_fixed (by decide) n
  calc streamBit^[n] v = 0
    _ ↔ crcBit^[n] (BitVec.ofNat 32 v) = crcBit^[n] 0#32 := by
      rw [← hreg, hzero, ← BitVec.toNat_inj, BitVec.toNat_zero]
    _ ↔ BitVec.ofNat 32 v = 0#32 := (crcBit_injective.iterate n).eq_iff
    _ ↔ v = 0 := by
      rw [← BitVec.toNat_inj, BitVec.toNat_ofNat, Nat.mod_eq_of_lt hv, BitVec.toNat_zero]

/-- A burst of at most 32 bits does not run to 0, wherever it stands. -/
theorem iterate_streamBit_burst {w : Nat} (hw : w < 2 ^ 32) (len n : Nat) :
    streamBit^[len] (2 ^ n * w) = 0 ↔ w = 0 := by
  obtain ⟨k, rfl⟩ | ⟨k, rfl⟩ := (Nat.le_total n len).imp Nat.exists_eq_add_of_le' Nat.exists_eq_add_of_le
  · rw [Function.iterate_add_apply, iterate_streamBit_two_pow_mul, iterate_streamBit_eq_zero_iff hw]
  · rw [Nat.pow_add, Nat.mul_assoc, iterate_streamBit_two_pow_mul]
    simp

/-- A turn clears exactly the generator's pattern and 0. -/
theorem streamBit_eq_zero_iff (p : Nat) : streamBit p = 0 ↔ p = 0 ∨ p = generatorPattern := by
  have hpoly : crcPoly.toNat = 0xEDB88320 := rfl
  unfold streamBit generatorPattern
  split_ifs with hodd
  · rw [Nat.xor_eq_zero_iff, hpoly, Nat.shiftRight_one]
    simp only [Nat.testBit_zero, decide_eq_true_eq] at hodd
    omega
  · rw [Nat.shiftRight_one]
    simp only [Nat.testBit_zero, decide_eq_true_eq] at hodd
    omega

theorem streamBit_lt {p : Nat} (hp : p < 2 ^ 33) : streamBit p < 2 ^ 32 := by
  have hhalf : p >>> 1 < 2 ^ 32 := by
    rw [Nat.shiftRight_one]
    omega
  unfold streamBit
  split_ifs
  · exact Nat.xor_lt_two_pow hhalf crcPoly.isLt
  · exact hhalf

/-- Of 33 bits the first turn leaves a register, which stays 0 only if it is 0. -/
theorem iterate_streamBit_pattern {p n len : Nat} (hp : p < 2 ^ 33) (hfit : n + 33 ≤ len) :
    streamBit^[len] (2 ^ n * p) = 0 ↔ p = 0 ∨ p = generatorPattern := by
  obtain ⟨k, rfl⟩ : ∃ k, len = k + 1 + n := ⟨len - n - 1, by omega⟩
  rw [Function.iterate_add_apply, iterate_streamBit_two_pow_mul, Function.iterate_succ_apply,
    iterate_streamBit_eq_zero_iff (streamBit_lt hp), streamBit_eq_zero_iff]

/-- Bits that all lie in a window make a burst at the window's start. -/
theorem exists_burst {v n : Nat} (h : ∀ k, v.testBit k = true → n ≤ k ∧ k < n + 32) :
    ∃ w < 2 ^ 32, v = 2 ^ n * w := by
  refine ⟨v / 2 ^ n, Nat.lt_pow_two_of_testBit _ fun k hk => ?_, Nat.eq_of_testBit_eq fun k => ?_⟩
  · rw [Nat.testBit_div_two_pow, Bool.eq_false_iff]
    intro hbit
    have := h _ hbit
    omega
  · rw [Nat.testBit_two_pow_mul, Nat.testBit_div_two_pow]
    rcases Nat.lt_or_ge k n with hk | hk
    · rw [decide_eq_false (Nat.not_le.mpr hk), Bool.false_and, Bool.eq_false_iff]
      exact fun hbit => absurd (h k hbit).1 (Nat.not_le.mpr hk)
    · simp [hk, Nat.sub_add_cancel hk]

/-! ### The statements -/

/-- Settles O22: a flipped bit is a changed byte. -/
theorem crcDetectsSingleBitChange : Obligations.CrcDetectsSingleBitChange := fun _ n _ =>
  crc32_xorByte_ne (by omega) (oneBit_ne_zero n)

/-- Settles O23: the difference of the two strings is a burst, which does not run to 0. -/
theorem crcDetectsBurstsUpTo32Bits : Obligations.CrcDetectsBurstsUpTo32Bits := by
  intro a b n hlen hne hwindow hcrc
  have hdiff : ∀ k, (bitsValue a ^^^ bitsValue b).testBit k = true → n ≤ k ∧ k < n + 32 := fun k hk =>
    hwindow k (by simpa [testBit_bitsValue] using hk)
  obtain ⟨w, hw, hburst⟩ := exists_burst hdiff
  have hrun := (crc32_eq_iff hlen).mp hcrc
  rw [hburst, iterate_streamBit_burst hw] at hrun
  rw [hrun, Nat.mul_zero, Nat.xor_eq_zero_iff, bitsValue_inj hlen] at hburst
  exact hne hburst

/-- Settles O24: the first turn on the pattern tells whether the difference runs to 0. -/
theorem onlyGeneratorPatternKeepsCrc : Obligations.OnlyGeneratorPatternKeepsCrc := by
  intro b n p hn hp
  have hlen : (xorAtBit b n p).length = b.length := List.length_mapIdx
  have hfit : p * 2 ^ n < 2 ^ (8 * b.length) := calc
    p * 2 ^ n < 2 ^ 33 * 2 ^ n := Nat.mul_lt_mul_of_pos_right hp (Nat.two_pow_pos n)
    _ = 2 ^ (n + 33) := by rw [← Nat.pow_add, Nat.add_comm]
    _ ≤ 2 ^ (8 * b.length) := Nat.pow_le_pow_right (by decide) hn
  have hdiff : bitsValue (xorAtBit b n p) ^^^ bitsValue b = 2 ^ n * p := by
    rw [bitsValue_xorAtBit hfit, Nat.xor_comm, Nat.xor_xor_cancel_left, Nat.mul_comm]
  refine ⟨?_, hlen, fun hp0 hsame => ?_⟩
  · rw [crc32_eq_iff hlen, hdiff, iterate_streamBit_pattern hp hn]
  · rw [hsame, Nat.xor_self] at hdiff
    simp [hp0] at hdiff

end Sys2Proof.Machine
end
